-- ==== Sys2Proof/Word.lean ====
section
/-! DEFINITION. Sys2Proof/Word.lean: the widths of the block's data (00_scope.md R3 to R5) and the closed sets of
names the spec gives: the four puncture patterns (30_encoding.md R40) and the four results of a command
(60_exceptions.md R82). -/

namespace Sys2Proof

/-- A bus word, a register or a command word: 32 bits, bit 0 least significant (R3, R4). -/
abbrev Word := BitVec 32

/-- A data byte of IBUF or OBUF (R13, R14). -/
abbrev Byte := BitVec 8

/-- A SoftBit: 16 bits, unsigned (R5). -/
abbrev SoftBit := BitVec 16

/-- The names PAT selects among (R40). -/
inductive Pattern where
  | lsf
  | pkt
  | str
  | raw
deriving DecidableEq, Repr

/-- The results a command completes with (R82); the codes 4 to 15 are never produced (93_implementation_defined.md I10). -/
inductive ErrCode where
  | ok
  | rsvd
  | op
  | len
deriving DecidableEq, Repr

end Sys2Proof
end

