-- ==== Sys2Proof/Syntax.lean ====
section
/-! DEFINITION. Sys2Proof/Syntax.lean: the block's instructions are its commands (30_encoding.md R44), one constructor
per row of spec/opcode_table.json. -/

namespace Sys2Proof

/-- The eight commands. `len` is LEN, the number L of input bytes (R42); `fb` is FB, the index from the most
significant end of the last bit taken from the last byte (R41). -/
inductive Instr where
  /-- ENC.LSF (R68). -/
  | encLsf (len : BitVec 8) (fb : BitVec 3)
  /-- ENC.PKT (R69). -/
  | encPkt (len : BitVec 8) (fb : BitVec 3)
  /-- ENC.STR (R70). -/
  | encStr (len : BitVec 8) (fb : BitVec 3)
  /-- ENC.RAW (R71). -/
  | encRaw (len : BitVec 8) (fb : BitVec 3)
  /-- UNP.LSF (R76). -/
  | unpLsf (len : BitVec 8) (fb : BitVec 3)
  /-- UNP.PKT (R77). -/
  | unpPkt (len : BitVec 8) (fb : BitVec 3)
  /-- UNP.STR (R78). -/
  | unpStr (len : BitVec 8) (fb : BitVec 3)
  /-- UNP.RAW (R79). -/
  | unpRaw (len : BitVec 8) (fb : BitVec 3)
deriving DecidableEq, Repr

end Sys2Proof
end

