-- ==== Sys2Proof/WellFormed.lean ====
section
/-! DEFINITION. Sys2Proof/WellFormed.lean: what a command must meet to be accepted beyond its encoding: LEN in 1..32
(30_encoding.md R42). FB and PAT have no illegal value (R40, R41). -/

namespace Sys2Proof

/-- LEN is legal: 1 to 32 = MAX_IN_BYTES (R42, 00_scope.md R3). -/
def lenLegal (len : BitVec 8) : Bool :=
  decide (1 ≤ len.toNat) && decide (len.toNat ≤ 32)

/-- LEN of a command. -/
def Instr.len : Instr → BitVec 8
  | .encLsf l _ => l
  | .encPkt l _ => l
  | .encStr l _ => l
  | .encRaw l _ => l
  | .unpLsf l _ => l
  | .unpPkt l _ => l
  | .unpStr l _ => l
  | .unpRaw l _ => l

/-- FB of a command. -/
def Instr.fb : Instr → BitVec 3
  | .encLsf _ f => f
  | .encPkt _ f => f
  | .encStr _ f => f
  | .encRaw _ f => f
  | .unpLsf _ f => f
  | .unpPkt _ f => f
  | .unpStr _ f => f
  | .unpRaw _ f => f

/-- A command with a legal LEN: one that validation accepts. -/
def Instr.wellFormed (i : Instr) : Bool :=
  lenLegal i.len

end Sys2Proof
end

