-- ==== Sys2Proof/Decode.lean ====
section
/-! DEFINITION. Sys2Proof/Decode.lean: the command word (30_encoding.md R38), its decoding, total on every 32-bit word
and rejecting by name (R44), its validation (60_exceptions.md R83), and the encoder (R44, R45). -/

namespace Sys2Proof

/-! ## The fields of R38 -/

/-- OP, bits 1:0. -/
def opField (w : Word) : BitVec 2 := w.extractLsb' 0 2

/-- PAT, bits 3:2. -/
def patField (w : Word) : BitVec 2 := w.extractLsb' 2 2

/-- FB, bits 6:4. -/
def fbField (w : Word) : BitVec 3 := w.extractLsb' 4 3

/-- LEN, bits 15:8. -/
def lenField (w : Word) : BitVec 8 := w.extractLsb' 8 8

/-- Some reserved bit (bit 7 or one of 31:16) is 1 (R43). -/
def reservedSet (w : Word) : Bool :=
  w.getLsbD 7 || w.extractLsb' 16 16 != 0#16

/-! ## Decoding -/

/-- The command of OP = 0 that PAT selects (R39, R40, R44). -/
def encCommand (w : Word) : Instr :=
  if patField w = 0#2 then .encLsf (lenField w) (fbField w)
  else if patField w = 1#2 then .encPkt (lenField w) (fbField w)
  else if patField w = 2#2 then .encStr (lenField w) (fbField w)
  else .encRaw (lenField w) (fbField w)

/-- The command of OP = 1 that PAT selects (R39, R40, R44). -/
def unpCommand (w : Word) : Instr :=
  if patField w = 0#2 then .unpLsf (lenField w) (fbField w)
  else if patField w = 1#2 then .unpPkt (lenField w) (fbField w)
  else if patField w = 2#2 then .unpStr (lenField w) (fbField w)
  else .unpRaw (lenField w) (fbField w)

/-- The command a word names, or the error for which it names none: `rsvd` or `op` (R44). A word whose LEN is out of
range still names its command: that range is validation's affair (R44). -/
def decode (w : Word) : Except ErrCode Instr :=
  if reservedSet w then .error .rsvd
  else if opField w = 0#2 then .ok (encCommand w)
  else if opField w = 1#2 then .ok (unpCommand w)
  else .error .op

/-- Validation, in the fixed order of R83, reporting the first failure only. -/
def validate (w : Word) : ErrCode :=
  if reservedSet w then .rsvd
  else if opField w = 2#2 ∨ opField w = 3#2 then .op
  else if lenField w = 0#8 ∨ 32 < (lenField w).toNat then .len
  else .ok

/-- The decoder on a word given as a number, bit 0 least significant. Every command has 32 bits and none is longer
(R38), so a number of more bits, or one with bits above `nbits`, names no command. -/
def decodeTableWord (nbits w : Nat) : Option Instr :=
  if w < 2 ^ nbits ∧ w < 2 ^ 32 then
    match decode (BitVec.ofNat 32 w) with
    | .ok i => some i
    | .error _ => none
  else none

/-! ## Encoding -/

/-- The `match` column of R44's table: OP and PAT in place, every other bit 0. -/
def Instr.rowMatch : Instr → Word
  | .encLsf _ _ => 0x00000000#32
  | .encPkt _ _ => 0x00000004#32
  | .encStr _ _ => 0x00000008#32
  | .encRaw _ _ => 0x0000000C#32
  | .unpLsf _ _ => 0x00000001#32
  | .unpPkt _ _ => 0x00000005#32
  | .unpStr _ _ => 0x00000009#32
  | .unpRaw _ _ => 0x0000000D#32

/-- The `mask` column of R44's table, the same in every row. -/
def rowMask : Word := 0xFFFF008F#32

/-- The command word `w = (L << 8) | (FB << 4) | (PAT << 2) | OP` (R44). -/
def encode (i : Instr) : Word :=
  (i.len.zeroExtend 32 <<< 8) ||| (i.fb.zeroExtend 32 <<< 4) ||| i.rowMatch

/-! ## Assembler (R45, R46) -/

/-- The mnemonic of R44. -/
def Instr.mnemonic : Instr → String
  | .encLsf _ _ => "ENC.LSF"
  | .encPkt _ _ => "ENC.PKT"
  | .encStr _ _ => "ENC.STR"
  | .encRaw _ _ => "ENC.RAW"
  | .unpLsf _ _ => "UNP.LSF"
  | .unpPkt _ _ => "UNP.PKT"
  | .unpStr _ _ => "UNP.STR"
  | .unpRaw _ _ => "UNP.RAW"

/-- A command as R45 writes it: `<mnemonic> <L>, <FB>`. -/
def Instr.asm (i : Instr) : String :=
  i.mnemonic ++ " " ++ toString i.len.toNat ++ ", " ++ toString i.fb.toNat

/-- The assembler on `<mnemonic> <L>, <FB>`, the mnemonic given as its constructor: it refuses an L outside 1..32 or
an FB outside 0..7 (R45). -/
def assemble (mk : BitVec 8 → BitVec 3 → Instr) (L FB : Nat) : Option Word :=
  if 1 ≤ L ∧ L ≤ 32 ∧ FB ≤ 7 then some (encode (mk (BitVec.ofNat 8 L) (BitVec.ofNat 3 FB))) else none

/-- ENC.LSF.FRAME (R46). -/
def encLsfFrame : Instr := .encLsf 30#8 7#3
/-- ENC.PKT.FRAME (R46). -/
def encPktFrame : Instr := .encPkt 26#8 5#3
/-- ENC.STR.FRAME (R46). -/
def encStrFrame : Instr := .encStr 18#8 7#3
/-- UNP.LSF.FRAME (R46). -/
def unpLsfFrame : Instr := .unpLsf 30#8 7#3
/-- UNP.PKT.FRAME (R46). -/
def unpPktFrame : Instr := .unpPkt 26#8 5#3
/-- UNP.STR.FRAME (R46). -/
def unpStrFrame : Instr := .unpStr 18#8 7#3

end Sys2Proof
end

