-- ==== Sys2Proof/Config.lean ====
section
/-! DEFINITION. Sys2Proof/Config.lean: what the spec leaves open, as constants without a body: nothing can be proved
about a value of theirs, so a claim holds for every value. The number each is applied to is the counter `draws` or
`epoch` of State, so that every draw is a draw of its own (00_scope.md R4, `draw()`). -/

namespace Sys2Proof.Config

/-- The byte a buffer cell holds that nothing has written since hardware reset number `epoch`
(70_reset_and_hazards.md R95, I1), by the cell's window offset: independent per cell, the same at every read. -/
opaque powerUpByte : (epoch : Nat) → (offset : Nat) → Byte

/-- Byte number `k` of an output buffer whose command was abandoned (R99, I4), at draw number `n`. -/
opaque drawByte : (n : Nat) → (k : Nat) → Byte

/-- The data word of a read that returns `draw()`: of an output buffer while busy (20_memory.md R34, I2), or of an
access that gets the error response (R25, I3), at draw number `n`. -/
opaque drawWord : (n : Nat) → Word

/-- ENGINE_LATENCY (00_scope.md R3, 70_reset_and_hazards.md R104, I5): how many host accesses may fall between the
acceptance made at draw number `n` and its completion; any number, its own for every command. -/
opaque engineLatency : (n : Nat) → Nat

/-- The two tap sets of the code, as offsets `k` into the window (a[i], ..., a[i+4]) of 40_encode.md R55: the
configuration pair (G1_TAPS, G2_TAPS) of 92_eei_decisions.md D1. -/
structure Taps where
  g1 : List Nat
  g2 : List Nat
deriving DecidableEq, Repr

end Sys2Proof.Config
end

