-- ==== Sys2Proof/Machine/State.lean ====
section
/-! DEFINITION. Sys2Proof/Machine/State.lean: everything the spec gives the block to hold (10_state.md R7), the events
that reach it from outside (00_scope.md R6), the ways a step can stop, and the state after a hardware reset
(70_reset_and_hazards.md R94 to R96). -/

namespace Sys2Proof.Machine

/-- The buffers' contents, by window offset: (offset, byte) pairs, offsets strictly rising. An offset that is not
listed holds no written value: it reads as the free value of R95. -/
abbrev Memory := List Host.Cell

/-- The block's answer to a bus access: a read's data or a normal response to a write (20_memory.md R26), or the error
response of R25, whose read data the block does not define. -/
inductive BusResponse where
  | readOk (data : Word)
  | readError (data : Word)
  | writeOk
  | writeError
deriving DecidableEq, Repr

/-- An event from outside the block: the host's bus operations in the notation of 30_encoding.md R47, and the edges of
the reset input (R97). `off` is a byte offset of the 8 KiB window (R21), `bytes` the width of the access (R23). -/
inductive HostEvent where
  /-- A bus write; WR32 is the one with 4 bytes. -/
  | write (off : BitVec 13) (bytes : Nat) (data : Word)
  /-- A bus read; RD32 is the one with 4 bytes. -/
  | read (off : BitVec 13) (bytes : Nat)
  /-- POLL: a 4-byte read, repeated until `data & mask = value`. -/
  | poll (off : BitVec 13) (mask value : Word)
  /-- WAITIRQ: the host makes no access until irq is 1. -/
  | waitIrq
  /-- The reset input is asserted: a hardware reset. -/
  | assertReset
  /-- The reset input is released. -/
  | releaseReset
deriving DecidableEq, Repr

/-- The locations of the address map R22; `q` is the word number in a buffer. -/
inductive Location where
  | id
  | ctrl
  | cmd
  | status
  | outcnt
  | ibuf (q : Nat)
  | obuf (q : Nat)
  | sibuf (q : Nat)
  | sobuf (q : Nat)
deriving DecidableEq, Repr

/-- The block, its inputs and its last bus response. -/
structure State where
  /-- CTRL.IE (R9). -/
  ie : Bool
  /-- The command latch LCMD (R10). -/
  lcmd : Word
  /-- STATUS.BUSY (R11), which is the engine's state (R17). -/
  busy : Bool
  /-- STATUS.DONE (R11). -/
  done : Bool
  /-- STATUS.OVR (R11). -/
  ovr : Bool
  /-- STATUS.ERRCODE (R11, R82). -/
  errcode : ErrCode
  /-- OUTCNT.OUT (R12). -/
  outCount : BitVec 10
  /-- OUTCNT.IN (R12). -/
  inCount : BitVec 10
  /-- IBUF, OBUF, SIBUF and SOBUF (R13 to R16), at their window offsets (R22). -/
  mem : Memory
  /-- The encoder shift register SR (R18). -/
  sr : BitVec 4
  /-- The puncture index (R19). -/
  pidx : Nat
  /-- The level of the reset input (R97). -/
  resetAsserted : Bool
  /-- The model's own: what the host and the reset input will do, oldest first (R6, R32). -/
  pending : List HostEvent
  /-- The model's own: the block's answer to the last bus access, none before the first. -/
  response : Option BusResponse
  /-- The model's own: how many more host accesses fall before the completion step (R104). -/
  latencyLeft : Nat
  /-- The model's own: how many hardware resets there have been; it selects the free values of R95. -/
  epoch : Nat
  /-- The model's own: how many values have been drawn (R4, `draw()`). -/
  draws : Nat
deriving DecidableEq, Repr

/-- The ways a step can stop. -/
inductive Fault where
  /-- A host access while the reset input is asserted: the block gives it no response (R97), and the model has no
  transition (93_implementation_defined.md I14, "stuck"). Raised by `stepInReset` alone. Safe: the model stops where
  the platform decides. -/
  | accessDuringReset
deriving DecidableEq, Repr

/-- No meaning for the instruction. -/
inductive Refusal where
  /-- The instruction, by the mnemonic of spec/opcode_table.json, has no meaning in this model. Raised by no arm of
  `exec`: every command has its meaning. Safe: the model stops. -/
  | notModelled (mnemonic : String)
deriving DecidableEq, Repr

/-- The state a hardware reset leaves (R94, R96), the reset input released, nothing listed in memory (R95), no event
to come. -/
def State.reset : State where
  ie := false
  lcmd := 0#32
  busy := false
  done := false
  ovr := false
  errcode := .ok
  outCount := 0#10
  inCount := 0#10
  mem := []
  sr := 0#4
  pidx := 0
  resetAsserted := false
  pending := []
  response := none
  latencyLeft := 0
  epoch := 0
  draws := 0

end Sys2Proof.Machine
end

