-- ==== Sys2Proof/Machine/Flags.lean ====
section
/-! DEFINITION. Sys2Proof/Machine/Flags.lean: the register words the host reads (10_state.md R8 to R12), every flag
computation of the spec, and irq (60_exceptions.md R85). -/

namespace Sys2Proof.Machine

/-- ID, the constant of R8. -/
def idWord : Word := 0x4D170501#32

end Sys2Proof.Machine

/-- The ERRCODE value of a result (60_exceptions.md R82). -/
def Sys2Proof.ErrCode.code : Sys2Proof.ErrCode → BitVec 4
  | .ok => 0#4
  | .rsvd => 1#4
  | .op => 2#4
  | .len => 3#4

namespace Sys2Proof.Machine

/-- CTRL as read: IE in bit 0; SRST and the reserved bits read 0 (R9). -/
def ctrlWord (s : State) : Word :=
  0#31 ++ BitVec.ofBool s.ie

/-- STATUS as read: ERRCODE in 11:8, OVR, DONE, BUSY in 2:0, reserved bits 0 (R11). -/
def statusWord (s : State) : Word :=
  0#20 ++ s.errcode.code ++ 0#5 ++ BitVec.ofBool s.ovr ++ BitVec.ofBool s.done ++ BitVec.ofBool s.busy

/-- OUTCNT as read: IN in 25:16, OUT in 9:0, reserved bits 0 (R12). -/
def outcntWord (s : State) : Word :=
  0#6 ++ s.inCount ++ 0#6 ++ s.outCount

/-- The interrupt output, a level: IE AND DONE (R85). -/
def State.irq (s : State) : Bool := s.ie && s.done

/-- A STATUS write: bit 1 clears DONE, bit 2 clears OVR, nothing else (R11). Clearing DONE is the acknowledgement of
60_exceptions.md R86, the block's return from a command error or a completion. -/
def statusWrite (v : Word) (s : State) : State :=
  { s with done := s.done && !v.getLsbD 1, ovr := s.ovr && !v.getLsbD 2 }

/-- A dropped write sets OVR (20_memory.md R35, 30_encoding.md R49). -/
def overrun (s : State) : State :=
  { s with ovr := true }

/-- The STATUS bits of a successful completion (30_encoding.md R50); no host access is awaited any more. -/
def completeOk (s : State) : State :=
  { s with busy := false, done := true, errcode := .ok, latencyLeft := 0 }

end Sys2Proof.Machine
end

