-- ==== Sys2Proof/Machine/Ops.lean ====
section
/-! DEFINITION. Sys2Proof/Machine/Ops.lean: the named operations over the memory and the registers: the buffers and
their packing (20_memory.md R27 to R29), taking a command error (60_exceptions.md R84) and a bus error (R25), the
abandonment of a command and the two resets (70_reset_and_hazards.md R94 to R99). -/

namespace Sys2Proof.Machine

/-! ## Memory -/

/-- The canonical form: offsets strictly rising. (Nothing more is asked: an unlisted offset reads as no value at all,
so no entry can equal it.) -/
abbrev Memory.wf (m : Memory) : Prop := m.Pairwise (fun c d => c.1 < d.1)

/-- The byte listed at an offset, if one is. -/
def Memory.lookup (m : Memory) (a : Nat) : Option Byte := List.lookup a m

/-- The cells of consecutive bytes from offset `a` on. -/
def cellsFrom : Nat → List Byte → Memory
  | _, [] => []
  | a, b :: bs => (a, b) :: cellsFrom (a + 1) bs

/-- Writes consecutive bytes from offset `a` on, keeping the canonical form. -/
def Memory.write (m : Memory) (a : Nat) (bs : List Byte) : Memory :=
  m.filter (fun c => decide (c.1 < a)) ++ (cellsFrom a bs ++ m.filter (fun c => decide (a + bs.length ≤ c.1)))

/-- What an unlisted offset reads as, in one place: the free value of R95 for this epoch and offset. -/
def unlistedByte (s : State) (a : Nat) : Byte := Config.powerUpByte s.epoch a

/-- The byte of a buffer cell at a window offset. -/
def State.byteAt (s : State) (a : Nat) : Byte := (s.mem.lookup a).getD (unlistedByte s a)

/-- Writes consecutive bytes of a buffer. -/
def State.writeBytes (s : State) (a : Nat) (bs : List Byte) : State := { s with mem := s.mem.write a bs }

/-! ## The buffers (R22) -/

/-- The offset of IBUF. -/
def ibufBase : Nat := 0x0040
/-- The bytes of IBUF (R13). -/
def ibufSize : Nat := 32
/-- The offset of OBUF. -/
def obufBase : Nat := 0x0080
/-- The bytes of OBUF (R14). -/
def obufSize : Nat := 68
/-- The offset of SIBUF. -/
def sibufBase : Nat := 0x0400
/-- The offset of SOBUF. -/
def sobufBase : Nat := 0x0C00
/-- The entries of SIBUF and of SOBUF (R15, R16). -/
def softEntries : Nat := 520
/-- The bytes of SIBUF and of SOBUF. -/
def softSize : Nat := 1040

/-- `IBUF[j]` (R13, R27). -/
def State.ibuf (s : State) (j : Nat) : Byte := s.byteAt (ibufBase + j)

/-- `OBUF.byte[b]` (R14, R28). -/
def State.obufByte (s : State) (b : Nat) : Byte := s.byteAt (obufBase + b)

/-- `OBUF.bit[k]`, at bit `7 - (k mod 8)` of `OBUF.byte[floor(k / 8)]` (R14). -/
def State.obufBit (s : State) (k : Nat) : Bool := (s.obufByte (k / 8)).getLsbD (7 - k % 8)

/-- The 16-bit entry at a window offset, low byte first (R29). -/
def State.softAt (s : State) (a : Nat) : SoftBit := s.byteAt (a + 1) ++ s.byteAt a

/-- `SIBUF[k]` (R15, R29). -/
def State.sibuf (s : State) (k : Nat) : SoftBit := s.softAt (sibufBase + 2 * k)

/-- `SOBUF[k]` (R16, R29). -/
def State.sobuf (s : State) (k : Nat) : SoftBit := s.softAt (sobufBase + 2 * k)

/-- The 32-bit word at a window offset, byte lanes in little-endian order (R27 to R29). -/
def State.wordAt (s : State) (a : Nat) : Word :=
  s.byteAt (a + 3) ++ s.byteAt (a + 2) ++ s.byteAt (a + 1) ++ s.byteAt a

/-- The four byte lanes of a bus word, lane 0 first (R27). -/
def wordBytes (v : Word) : List Byte :=
  [v.extractLsb' 0 8, v.extractLsb' 8 8, v.extractLsb' 16 8, v.extractLsb' 24 8]

/-- The two bytes of a SoftBit, low byte first (R29). -/
def softBytes (v : SoftBit) : List Byte :=
  [v.extractLsb' 0 8, v.extractLsb' 8 8]

/-- Byte `b` of OBUF for the output bits `y`: `OBUF.bit[8b]` in bit 7 down to `OBUF.bit[8b+7]` in bit 0 (R28), a bit
past the end of `y` being 0 (40_encode.md R67). -/
def packByte (y : List Bool) (b : Nat) : Byte :=
  BitVec.ofBoolListBE [y.getD (8 * b) false, y.getD (8 * b + 1) false, y.getD (8 * b + 2) false,
    y.getD (8 * b + 3) false, y.getD (8 * b + 4) false, y.getD (8 * b + 5) false, y.getD (8 * b + 6) false,
    y.getD (8 * b + 7) false]

/-- All 68 bytes of OBUF for the output bits `y` (R67). -/
def packBits (y : List Bool) : List Byte :=
  (List.range obufSize).map (packByte y)

/-- All 1040 bytes of SOBUF for its 520 entries (R29). -/
def packSofts (z : List SoftBit) : List Byte :=
  z.flatMap softBytes

/-! ## Taking an error, and leaving it -/

/-- `raise CmdError(e)` (R84): the command completes at once with error code `e`. The engine is idle after it, LCMD
holds the word, OVR and the buffers keep their values. -/
def cmdError (e : ErrCode) (s : State) : State :=
  { s with errcode := e, done := true, outCount := 0#10, inCount := 0#10, busy := false, latencyLeft := 0 }

/-- The host's acknowledgement of a completion or of a command error: a STATUS write with bit 1 set (R86). -/
def acknowledge (s : State) : State := statusWrite 0x00000002#32 s

/-- `raise BusError` on a write (R25): the error response and nothing else. -/
def busErrorWrite (s : State) : State := { s with response := some .writeError }

/-- `raise BusError` on a read (R25): the error response, with a data word the block does not define. -/
def busErrorRead (s : State) : State :=
  { s with response := some (.readError (Config.drawWord s.draws)), draws := s.draws + 1 }

/-! ## Issuing a command -/

/-- The acceptance of a valid command word (30_encoding.md R48): the engine becomes busy with LCMD, and the number of
host accesses before its completion is drawn (R104). -/
def accept (s : State) : State :=
  { s with outCount := 0#10, inCount := 0#10, busy := true, latencyLeft := Config.engineLatency s.draws,
           draws := s.draws + 1 }

/-- A command issue while idle (R48). -/
def issue (w : Word) (s : State) : State :=
  let s1 := { s with lcmd := w, done := false, errcode := .ok }
  if validate w = .ok then accept s1 else cmdError (validate w) s1

/-- A write to CMD: an issue while idle (R48), dropped with OVR while busy (R49). -/
def cmdWrite (w : Word) (s : State) : State :=
  if s.busy then overrun s else issue w s

/-- A command placed in the engine as an acceptance leaves it (R48), with no host access to come before it is
performed and the reset input released. -/
def placeCommand (w : Word) (s : State) : State :=
  { s with lcmd := w, busy := true, done := false, latencyLeft := 0, resetAsserted := false }

/-! ## Resets -/

/-- `n` bytes of draw number `d` (R99). -/
def drawBytes (d n : Nat) : List Byte := (List.range n).map (Config.drawByte d)

/-- The command in progress is abandoned (R99): the output buffer of its family, OBUF for OP = 0 and SOBUF for OP = 1,
holds unspecified values. -/
def abandon (s : State) : State :=
  if opField s.lcmd = 0#2 then
    { s with mem := s.mem.write obufBase (drawBytes s.draws obufSize), draws := s.draws + 1 }
  else if opField s.lcmd = 1#2 then
    { s with mem := s.mem.write sobufBase (drawBytes s.draws softSize), draws := s.draws + 1 }
  else s

/-- The registers and the engine as both resets leave them (R94, R96, R98). -/
def clearRegisters (s : State) : State :=
  { s with ie := false, lcmd := 0#32, busy := false, done := false, ovr := false, errcode := .ok,
           outCount := 0#10, inCount := 0#10, sr := 0#4, pidx := 0, latencyLeft := 0 }

/-- The soft reset (R98, R99): it keeps the buffers but the output buffer of a command it abandons. -/
def softReset (s : State) : State :=
  clearRegisters (if s.busy then abandon s else s)

/-- The hardware reset (R94, R95): its registers, and every buffer cell a new unspecified value; the reset input is
asserted (R97). -/
def hardReset (s : State) : State :=
  { clearRegisters s with mem := [], epoch := s.epoch + 1, resetAsserted := true, response := none }

/-- A write to CTRL (R9): SRST performs the soft reset whatever IE's bit is; otherwise IE is written. -/
def ctrlWrite (v : Word) (s : State) : State :=
  if v.getLsbD 1 then softReset s else { s with ie := v.getLsbD 0 }

end Sys2Proof.Machine
end

