-- ==== Sys2Proof/Machine/Bus.lean ====
section
/-! DEFINITION. Sys2Proof/Machine/Bus.lean: the host's bus accesses: the address map (20_memory.md R22), widths,
alignment and the error response (R23 to R25), reads and writes of every location (R26 to R29, R34, R35). -/

namespace Sys2Proof.Machine

/-- The location of an aligned word offset, none where R22 maps nothing. -/
def locate (off : Nat) : Option Location :=
  if off = 0x0000 then some .id
  else if off = 0x0004 then some .ctrl
  else if off = 0x0008 then some .cmd
  else if off = 0x000C then some .status
  else if off = 0x0010 then some .outcnt
  else if ibufBase ≤ off ∧ off < ibufBase + ibufSize then some (.ibuf ((off - ibufBase) / 4))
  else if obufBase ≤ off ∧ off < obufBase + obufSize then some (.obuf ((off - obufBase) / 4))
  else if sibufBase ≤ off ∧ off < sibufBase + softSize then some (.sibuf ((off - sibufBase) / 4))
  else if sobufBase ≤ off ∧ off < sobufBase + softSize then some (.sobuf ((off - sobufBase) / 4))
  else none

/-- The location an access reaches: none, for the error response, where it is not one aligned 32-bit word of a mapped
offset (R23, R24, R25). -/
def accessTarget (off : BitVec 13) (bytes : Nat) : Option Location :=
  if bytes = 4 ∧ off.toNat % 4 = 0 then locate off.toNat else none

/-- The word a read of a location returns, where the block defines it (R8 to R12, R27 to R29). -/
def locationWord (s : State) : Location → Word
  | .id => idWord
  | .ctrl => ctrlWord s
  | .cmd => s.lcmd
  | .status => statusWord s
  | .outcnt => outcntWord s
  | .ibuf q => s.wordAt (ibufBase + 4 * q)
  | .obuf q => s.wordAt (obufBase + 4 * q)
  | .sibuf q => s.wordAt (sibufBase + 4 * q)
  | .sobuf q => s.wordAt (sobufBase + 4 * q)

/-- A read of the location has no defined data now: an output buffer while busy (R34). -/
def readsFree (s : State) : Location → Bool
  | .id => false
  | .ctrl => false
  | .cmd => false
  | .status => false
  | .outcnt => false
  | .ibuf _ => false
  | .obuf _ => s.busy
  | .sibuf _ => false
  | .sobuf _ => s.busy

/-- A bus read (R25, R26, R34). -/
def hostRead (off : BitVec 13) (bytes : Nat) (s : State) : State :=
  match accessTarget off bytes with
  | none => busErrorRead s
  | some l =>
    if readsFree s l then { s with response := some (.readOk (Config.drawWord s.draws)), draws := s.draws + 1 }
    else { s with response := some (.readOk (locationWord s l)) }

/-- A write to an input-buffer word at a window offset: dropped with OVR while busy (R35), else all its byte lanes at
once (R27, R29). -/
def inputWrite (a : Nat) (v : Word) (s : State) : State :=
  if s.busy then overrun s else s.writeBytes a (wordBytes v)

/-- What a write does to the block, by location (R9 to R12, R26 to R29, R35). -/
def locationWrite (l : Location) (v : Word) (s : State) : State :=
  match l with
  | .id => s
  | .ctrl => ctrlWrite v s
  | .cmd => cmdWrite v s
  | .status => statusWrite v s
  | .outcnt => s
  | .ibuf q => inputWrite (ibufBase + 4 * q) v s
  | .obuf _ => s
  | .sibuf q => inputWrite (sibufBase + 4 * q) v s
  | .sobuf _ => s

/-- A bus write (R25, R26). -/
def hostWrite (off : BitVec 13) (bytes : Nat) (v : Word) (s : State) : State :=
  match accessTarget off bytes with
  | none => busErrorWrite s
  | some l => { locationWrite l v s with response := some .writeOk }

end Sys2Proof.Machine
end

