-- ==== Sys2Proof/Machine/Operands.lean ====
section
/-! DEFINITION. Sys2Proof/Machine/Operands.lean: what a command's operands L, FB and PAT stand for: the number of input
bits and the input bit stream (40_encode.md R52, R53), the length of the code word (R56) and the puncture patterns
(R58 to R61). -/

namespace Sys2Proof.Machine

/-- The number of input bits, `n = 8 (L - 1) + FB + 1` (R52). -/
def inputCount (len : BitVec 8) (fb : BitVec 3) : Nat := 8 * (len.toNat - 1) + fb.toNat + 1

/-- The length of the code word, `T = 2 (n + 4)` (R56, 41_unpuncture.md R72). -/
def codeLength (len : BitVec 8) (fb : BitVec 3) : Nat := 2 * (inputCount len fb + 4)

/-- How many bits are taken of byte `j`: 8, and `FB + 1` of the last one (R53). -/
def bitsOfByte (len : BitVec 8) (fb : BitVec 3) (j : Nat) : Nat :=
  if j < len.toNat - 1 then 8 else fb.toNat + 1

/-- The first `nb` bits of a byte, most significant first (R53). -/
def bitsMsbFirst (b : Byte) (nb : Nat) : List Bool :=
  (List.range nb).map (fun t => b.getLsbD (7 - t))

/-- The input bit stream `u` (R53). -/
def inputBits (s : State) (len : BitVec 8) (fb : BitVec 3) : List Bool :=
  (List.range len.toNat).flatMap (fun j => bitsMsbFirst (s.ibuf j) (bitsOfByte len fb j))

/-- The entries of a puncture pattern: P_LSF (R58), P_PKT (R59), P_STR (R60), P_RAW (R61). -/
def patternEntries : Pattern → List Bool
  | .lsf => (List.range 61).map (fun i => i % 4 != 2)
  | .pkt => [true, true, true, true, true, true, true, false]
  | .str => [true, true, true, true, true, true, true, true, true, true, true, false]
  | .raw => [true]

end Sys2Proof.Machine
end

