-- ==== Sys2Proof/Machine/Coding.lean ====
section
/-! DEFINITION. Sys2Proof/Machine/Coding.lean: the convolutional code (40_encode.md R54 to R57), puncturing (R62, R63)
and unpuncturing (41_unpuncture.md R73), as functions on sequences. -/

namespace Sys2Proof.Machine

/-! ## The code -/

/-- The tap sets of R55: `G1(i) = a[i+4] ⊕ a[i+1] ⊕ a[i]` and `G2(i) = a[i+4] ⊕ a[i+3] ⊕ a[i+2] ⊕ a[i]`. -/
def windowTaps : Config.Taps := { g1 := [4, 1, 0], g2 := [4, 3, 2, 0] }

/-- The tap sets of the reading 92_eei_decisions.md D1 decides against, `x` a one-step delay; no command uses them. -/
def delayTaps : Config.Taps := { g1 := [4, 3, 0], g2 := [4, 2, 1, 0] }

/-- One generator on a window `(a[i], ..., a[i+4])`: the XOR of the window bits its taps select (R55). -/
def generator (taps : List Nat) (window : List Bool) : Bool :=
  taps.foldl (fun acc k => acc ^^ window.getD k false) false

/-- The code bits of every 5-bit window of a sequence, G1 before G2 (R56). -/
def slide (t : Config.Taps) : List Bool → List Bool
  | [] => []
  | b :: rest =>
    if 4 ≤ rest.length then
      generator t.g1 ((b :: rest).take 5) :: generator t.g2 ((b :: rest).take 5) :: slide t rest
    else []

/-- The extended stream: 4 zeros before and 4 zeros after (R54). -/
def extended (u : List Bool) : List Bool :=
  List.replicate 4 false ++ u ++ List.replicate 4 false

/-- `ConvEncode(u)` under given tap sets (R56). -/
def convEncodeWith (t : Config.Taps) (u : List Bool) : List Bool := slide t (extended u)

/-- `ConvEncode(u)` (R56), under the reading of R55. -/
def convEncode (u : List Bool) : List Bool := convEncodeWith windowTaps u

/-- One step of the encoder shift register, `s' = 8 b + floor(s / 2)` (R57). -/
def srNext (sr : BitVec 4) (b : Bool) : BitVec 4 :=
  BitVec.ofBool b ++ sr.extractLsb' 1 3

/-- The two outputs of a step in the shift-register form, `G1 = b ⊕ s1 ⊕ s0`, `G2 = b ⊕ s3 ⊕ s2 ⊕ s0` (R57). -/
def srOutput (sr : BitVec 4) (b : Bool) : Bool × Bool :=
  (b ^^ sr.getLsbD 1 ^^ sr.getLsbD 0, b ^^ sr.getLsbD 3 ^^ sr.getLsbD 2 ^^ sr.getLsbD 0)

/-- The shift-register form run over a sequence from state `sr` (R57). -/
def srEncode : BitVec 4 → List Bool → List Bool
  | _, [] => []
  | sr, b :: bs => (srOutput sr b).1 :: (srOutput sr b).2 :: srEncode (srNext sr b) bs

/-- The shift register after an ENCODE command: from 0000, through the input and the 4 tail zeros (10_state.md R18). -/
def srAfter (u : List Bool) : BitVec 4 :=
  (u ++ List.replicate 4 false).foldl srNext 0#4

/-! ## Puncturing -/

/-- `P[i mod |P|]`: the pattern keeps position `i` (R62). -/
def keeps (P : List Bool) (i : Nat) : Bool := P.getD (i % P.length) false

/-- Puncturing from pattern index `i` on (R62). -/
def punctureFrom (P : List Bool) : Nat → List Bool → List Bool
  | _, [] => []
  | i, b :: c => if keeps P i then b :: punctureFrom P (i + 1) c else punctureFrom P (i + 1) c

/-- `Puncture(c, P)`: the index starts at 0 at code bit 0 of every command (R62, 10_state.md R19). -/
def puncture (c P : List Bool) : List Bool := punctureFrom P 0 c

/-- The number of 1 entries. -/
def ones (P : List Bool) : Nat := P.count true

/-- `Kept(T, P)`, the number of kept bits (R63). -/
def kept (T : Nat) (P : List Bool) : Nat :=
  T / P.length * ones P + ones (P.take (T % P.length))

/-! ## Unpuncturing -/

/-- softFalse, a confident 0 (00_scope.md R5). -/
def softFalse : SoftBit := 0x0000#16
/-- softTrue, a confident 1 (R5). -/
def softTrue : SoftBit := 0xFFFF#16
/-- The erasure value (R5). -/
def erasure : SoftBit := 0x7FFF#16

/-- The SoftBit of a hard decision (41_unpuncture.md R80). -/
def soft (b : Bool) : SoftBit := if b then softTrue else softFalse

/-- `n` positions of unpuncturing from pattern index `i` on, the next input entry being number `k` (R73). -/
def unpunctureFrom (P : List Bool) (src : Nat → SoftBit) : (n i k : Nat) → List SoftBit
  | 0, _, _ => []
  | n + 1, i, k =>
    if keeps P i then src k :: unpunctureFrom P src n (i + 1) (k + 1)
    else erasure :: unpunctureFrom P src n (i + 1) k

/-- `Unpuncture(T, P)` (R73), the input entries given by `src`. -/
def unpuncture (T : Nat) (P : List Bool) (src : Nat → SoftBit) : List SoftBit :=
  unpunctureFrom P src T 0 0

/-- The 520 entries of SOBUF: the stream, and the erasure value past it (R74). -/
def padErasures (z : List SoftBit) : List SoftBit :=
  z ++ List.replicate (softEntries - z.length) erasure

end Sys2Proof.Machine
end

