-- ==== Sys2Proof/Machine/Encode.lean ====
section
/-! DEFINITION. Sys2Proof/Machine/Encode.lean: the ENCODE family (40_encode.md R67 to R71). -/

namespace Sys2Proof.Machine

/-- `EncodeComplete` (R67), before the STATUS bits: OBUF, OUTCNT, and the hidden engine state the command leaves
(10_state.md R18, R19). -/
def encodeComplete (p : Pattern) (len : BitVec 8) (fb : BitVec 3) (s : State) : State :=
  let u := inputBits s len fb
  let y := puncture (convEncode u) (patternEntries p)
  { s with mem := s.mem.write obufBase (packBits y),
           outCount := BitVec.ofNat 10 y.length,
           inCount := BitVec.ofNat 10 (inputCount len fb),
           sr := srAfter u,
           pidx := 0 }

/-- The engine performs an ENCODE command: the completion step of 30_encoding.md R50. A LEN out of range, which
acceptance never lets through, is turned away with ERR_LEN (R42, R84). -/
def encodeCommand (p : Pattern) (len : BitVec 8) (fb : BitVec 3) (s : State) : Host.Outcome State Fault Refusal :=
  if lenLegal len then .next (completeOk (encodeComplete p len fb s)) else .next (cmdError .len s)

/-- ENC.LSF (R68). -/
def execEncLsf (len : BitVec 8) (fb : BitVec 3) (s : State) : Host.Outcome State Fault Refusal :=
  encodeCommand .lsf len fb s

/-- ENC.PKT (R69). -/
def execEncPkt (len : BitVec 8) (fb : BitVec 3) (s : State) : Host.Outcome State Fault Refusal :=
  encodeCommand .pkt len fb s

/-- ENC.STR (R70). -/
def execEncStr (len : BitVec 8) (fb : BitVec 3) (s : State) : Host.Outcome State Fault Refusal :=
  encodeCommand .str len fb s

/-- ENC.RAW (R71). -/
def execEncRaw (len : BitVec 8) (fb : BitVec 3) (s : State) : Host.Outcome State Fault Refusal :=
  encodeCommand .raw len fb s

end Sys2Proof.Machine
end

