-- ==== Sys2Proof/Machine/Unpuncture.lean ====
section
/-! DEFINITION. Sys2Proof/Machine/Unpuncture.lean: the UNPUNCTURE family (41_unpuncture.md R72 to R79). -/

namespace Sys2Proof.Machine

/-- `UnpunctureComplete` (R75), before the STATUS bits: SOBUF (R74) and OUTCNT; the puncture index is not kept
(10_state.md R19). -/
def unpunctureComplete (p : Pattern) (len : BitVec 8) (fb : BitVec 3) (s : State) : State :=
  let T := codeLength len fb
  let z := unpuncture T (patternEntries p) s.sibuf
  { s with mem := s.mem.write sobufBase (packSofts (padErasures z)),
           outCount := BitVec.ofNat 10 T,
           inCount := BitVec.ofNat 10 (kept T (patternEntries p)),
           pidx := 0 }

/-- The engine performs an UNPUNCTURE command: the completion step of 30_encoding.md R50. A LEN out of range, which
acceptance never lets through, is turned away with ERR_LEN (R42, R84). -/
def unpunctureCommand (p : Pattern) (len : BitVec 8) (fb : BitVec 3) (s : State) :
    Host.Outcome State Fault Refusal :=
  if lenLegal len then .next (completeOk (unpunctureComplete p len fb s)) else .next (cmdError .len s)

/-- UNP.LSF (R76). -/
def execUnpLsf (len : BitVec 8) (fb : BitVec 3) (s : State) : Host.Outcome State Fault Refusal :=
  unpunctureCommand .lsf len fb s

/-- UNP.PKT (R77). -/
def execUnpPkt (len : BitVec 8) (fb : BitVec 3) (s : State) : Host.Outcome State Fault Refusal :=
  unpunctureCommand .pkt len fb s

/-- UNP.STR (R78). -/
def execUnpStr (len : BitVec 8) (fb : BitVec 3) (s : State) : Host.Outcome State Fault Refusal :=
  unpunctureCommand .str len fb s

/-- UNP.RAW (R79). -/
def execUnpRaw (len : BitVec 8) (fb : BitVec 3) (s : State) : Host.Outcome State Fault Refusal :=
  unpunctureCommand .raw len fb s

end Sys2Proof.Machine
end

