-- ==== Sys2Proof/Machine/Dispatch.lean ====
section
/-! DEFINITION. Sys2Proof/Machine/Dispatch.lean: one arm per command. -/

namespace Sys2Proof.Machine

/-- The engine performs a command (30_encoding.md R50). -/
def exec (i : Instr) (s : State) : Host.Outcome State Fault Refusal :=
  match i with
  | .encLsf len fb => Sys2Proof.Machine.execEncLsf len fb s
  | .encPkt len fb => Sys2Proof.Machine.execEncPkt len fb s
  | .encStr len fb => Sys2Proof.Machine.execEncStr len fb s
  | .encRaw len fb => Sys2Proof.Machine.execEncRaw len fb s
  | .unpLsf len fb => Sys2Proof.Machine.execUnpLsf len fb s
  | .unpPkt len fb => Sys2Proof.Machine.execUnpPkt len fb s
  | .unpStr len fb => Sys2Proof.Machine.execUnpStr len fb s
  | .unpRaw len fb => Sys2Proof.Machine.execUnpRaw len fb s

end Sys2Proof.Machine
end

