-- ==== Sys2Proof/Machine/Agents.lean ====
section
/-! DEFINITION. Sys2Proof/Machine/Agents.lean: which agent moves next and what its move is: the engine's completion step
(30_encoding.md R50), the host's accesses (R47, 20_memory.md R32) and the reset input (70_reset_and_hazards.md R94,
R97). One event is one step (60_exceptions.md R87). -/

namespace Sys2Proof.Machine

/-- The engine's step: it performs the command in LCMD (R50). A word that names no command, which acceptance never lets
through, completes with the error its validation gives (R44, R83). -/
def performCommand (s : State) : Host.Outcome State Fault Refusal :=
  match decode s.lcmd with
  | .ok i => exec i s
  | .error e => .next (cmdError e s)

/-- The host's next event is taken off the list, and one host access fewer is left before the completion (R104). -/
def consume (rest : List HostEvent) (s : State) : State :=
  { s with pending := rest, latencyLeft := s.latencyLeft - 1 }

/-- The data word of a read's response. For an error response it is the word the block does not define (R25). -/
def responseData : Option BusResponse → Word
  | some (.readOk d) => d
  | some (.readError d) => d
  | some .writeOk => 0#32
  | some .writeError => 0#32
  | none => 0#32

/-- One read of a POLL: it stays at the head of the list until its condition holds (R47). -/
def pollOnce (off : BitVec 13) (mask value : Word) (rest : List HostEvent) (s : State) : State :=
  let t := hostRead off 4 (consume rest s)
  if responseData t.response &&& mask = value then t else { t with pending := s.pending }

/-- A WAITIRQ (R47): over once irq is 1; until then the engine goes on, or nothing happens. -/
def waitForIrq (rest : List HostEvent) (s : State) : Host.Outcome State Fault Refusal :=
  if s.irq then .next { s with pending := rest }
  else if s.busy then performCommand s
  else .next s

/-- An event from outside, the reset input not being asserted. -/
def hostMove (e : HostEvent) (rest : List HostEvent) (s : State) : Host.Outcome State Fault Refusal :=
  match e with
  | .write off bytes v => .next (hostWrite off bytes v (consume rest s))
  | .read off bytes => .next (hostRead off bytes (consume rest s))
  | .poll off mask value => .next (pollOnce off mask value rest s)
  | .waitIrq => waitForIrq rest s
  | .assertReset => .next (hardReset { s with pending := rest })
  | .releaseReset => .next { s with pending := rest }

/-- The completion step comes before this event: no host access is left before it (R104). -/
def engineDue (e : HostEvent) (s : State) : Bool :=
  match e with
  | .write _ _ _ => s.busy && s.latencyLeft == 0
  | .read _ _ => s.busy && s.latencyLeft == 0
  | .poll _ _ _ => s.busy && s.latencyLeft == 0
  | .waitIrq => false
  | .assertReset => s.busy && s.latencyLeft == 0
  | .releaseReset => s.busy && s.latencyLeft == 0

/-- A step while the reset input is asserted (R97): no bus access and no completion step; the state of R94 holds until
the release. A host access then has no response: the model has no transition for it (I14). -/
def stepInReset (s : State) : Host.Outcome State Fault Refusal :=
  match s.pending with
  | [] => .next s
  | .write _ _ _ :: _ => .fault .accessDuringReset
  | .read _ _ :: _ => .fault .accessDuringReset
  | .poll _ _ _ :: _ => .fault .accessDuringReset
  | .waitIrq :: _ => .next s
  | .assertReset :: rest => .next { s with pending := rest }
  | .releaseReset :: rest => .next { s with pending := rest, resetAsserted := false }

/-- One event of the block. With nothing to come the engine completes its command, and an idle block waits (R50,
60_exceptions.md R93). -/
def nextEvent (s : State) : Host.Outcome State Fault Refusal :=
  if s.resetAsserted then stepInReset s
  else
    match s.pending with
    | [] => if s.busy then performCommand s else .next s
    | e :: rest => if engineDue e s then performCommand s else hostMove e rest s

end Sys2Proof.Machine
end

