-- ==== Sys2Proof/Machine/Step.lean ====
section
/-! DEFINITION. Sys2Proof/Machine/Step.lean: the step, and the placing of a command where the engine fetches it. -/

namespace Sys2Proof.Machine

/-- One step: one event of the host, the engine or the reset input (20_memory.md R32, 60_exceptions.md R87). -/
def step (s : State) : Host.Outcome State Fault Refusal := nextEvent s

/-- The state with the command word `w` in LCMD and the engine busy with it, as its acceptance leaves it, no host
access to come before its completion: the next step performs it. -/
def State.withFetchWord (s : State) (nbits w : Nat) : State :=
  placeCommand (BitVec.ofNat 32 (w % 2 ^ nbits)) s

end Sys2Proof.Machine
end

