-- ==== Sys2Proof/Safety.lean ====
section
/-! DEFINITION. Sys2Proof/Safety.lean: the terms claims are stated in: the regions of the window, what it means that
bytes and registers are kept, the invariant of the reachable states, and the spec's own index-by-index forms of the
code, the patterns and the two operations, written apart from the functions the machine runs. -/

namespace Sys2Proof.Machine

/-! ## Regions of the window (20_memory.md R22) -/

/-- A byte offset of IBUF. -/
abbrev inIbuf (a : Nat) : Prop := 0x0040 ≤ a ∧ a ≤ 0x005F
/-- A byte offset of OBUF. -/
abbrev inObuf (a : Nat) : Prop := 0x0080 ≤ a ∧ a ≤ 0x00C3
/-- A byte offset of SIBUF. -/
abbrev inSibuf (a : Nat) : Prop := 0x0400 ≤ a ∧ a ≤ 0x080F
/-- A byte offset of SOBUF. -/
abbrev inSobuf (a : Nat) : Prop := 0x0C00 ≤ a ∧ a ≤ 0x100F
/-- A byte offset of a buffer. -/
abbrev inBuffer (a : Nat) : Prop := inIbuf a ∨ inObuf a ∨ inSibuf a ∨ inSobuf a
/-- A byte offset that R22 maps. -/
abbrev mappedOffset (a : Nat) : Prop := a ≤ 0x0013 ∨ inBuffer a

/-! ## What stays as it was -/

/-- Every byte reads as before. -/
def SameBytes (s t : State) : Prop := ∀ a, t.byteAt a = s.byteAt a

/-- Every byte outside the `n` bytes from `base` on reads as before. -/
def SameBytesOutside (base n : Nat) (s t : State) : Prop :=
  ∀ a, ¬(base ≤ a ∧ a < base + n) → t.byteAt a = s.byteAt a

/-- What no command writes: CTRL.IE, STATUS.OVR, LCMD, and everything that belongs to the host, the bus and the reset
input. -/
structure KeptByCommand (s t : State) : Prop where
  ie : t.ie = s.ie
  ovr : t.ovr = s.ovr
  lcmd : t.lcmd = s.lcmd
  resetAsserted : t.resetAsserted = s.resetAsserted
  pending : t.pending = s.pending
  response : t.response = s.response
  epoch : t.epoch = s.epoch
  draws : t.draws = s.draws

/-- The registers, flags, counters and hidden engine state, all as before. -/
structure SameRegisters (s t : State) : Prop where
  ie : t.ie = s.ie
  lcmd : t.lcmd = s.lcmd
  busy : t.busy = s.busy
  done : t.done = s.done
  ovr : t.ovr = s.ovr
  errcode : t.errcode = s.errcode
  outCount : t.outCount = s.outCount
  inCount : t.inCount = s.inCount
  sr : t.sr = s.sr
  pidx : t.pidx = s.pidx
  resetAsserted : t.resetAsserted = s.resetAsserted

/-! ## The invariant -/

/-- The registers of 70_reset_and_hazards.md R94 at their reset values. -/
structure AtReset (s : State) : Prop where
  ie : s.ie = false
  lcmd : s.lcmd = 0#32
  busy : s.busy = false
  done : s.done = false
  ovr : s.ovr = false
  errcode : s.errcode = .ok
  outCount : s.outCount = 0#10
  inCount : s.inCount = 0#10
  sr : s.sr = 0#4
  pidx : s.pidx = 0

/-- What holds of the block between events. -/
structure State.Inv (s : State) : Prop where
  /-- The memory is canonical. -/
  memCanonical : Memory.wf s.mem
  /-- Only buffer cells are listed (R22). -/
  memInBuffers : ∀ c ∈ s.mem, inBuffer c.1
  /-- BUSY = 1 implies DONE = 0 (10_state.md R11). -/
  busyNotDone : s.busy = true → s.done = false
  /-- The command in progress passed validation (R48, R50). -/
  busyValid : s.busy = true → validate s.lcmd = .ok
  /-- ERRCODE and OUTCNT are 0 from acceptance to completion (R11, R12). -/
  busyCleared : s.busy = true → s.errcode = .ok ∧ s.outCount = 0#10 ∧ s.inCount = 0#10
  /-- A command error records its word, and OUTCNT is 0 (60_exceptions.md R82, R84). -/
  errorRecorded : s.errcode ≠ .ok → validate s.lcmd = s.errcode ∧ s.outCount = 0#10 ∧ s.inCount = 0#10
  /-- The counters are at most 520 (R12). -/
  countsBounded : s.outCount.toNat ≤ 520 ∧ s.inCount.toNat ≤ 520
  /-- The shift register holds 0000 between commands (R18). -/
  srZero : s.sr = 0#4
  /-- While the reset input is asserted the state of R94 holds (R97). -/
  inReset : s.resetAsserted = true → AtReset s ∧ s.mem = []

/-! ## The spec's index forms (40_encode.md) -/

/-- `u[j]`, the input bit stream by index (R53): bit `7 - (j mod 8)` of byte `floor(j / 8)`. -/
def refInput (s : State) (j : Nat) : Bool := (s.ibuf (j / 8)).getLsbD (7 - j % 8)

/-- `a[j]`, the extended stream by index, for `n` input bits (R54). -/
def refExtended (s : State) (n j : Nat) : Bool :=
  if j < 4 then false else if j < n + 4 then refInput s (j - 4) else false

/-- `c[i]`, the code word by index: G1 of step `i / 2` at an even `i`, G2 at an odd one (R55, R56). -/
def refCode (s : State) (n i : Nat) : Bool :=
  let t := i / 2
  if i % 2 = 0 then refExtended s n (t + 4) ^^ refExtended s n (t + 1) ^^ refExtended s n t
  else refExtended s n (t + 4) ^^ refExtended s n (t + 3) ^^ refExtended s n (t + 2) ^^ refExtended s n t

/-- The pattern keeps position `i`, by the arithmetic of R58 to R61. -/
def refKeeps : Pattern → Nat → Bool
  | .lsf, i => i % 61 % 4 != 2
  | .pkt, i => i % 8 != 7
  | .str, i => i % 12 != 11
  | .raw, _ => true

/-- `r(i)`, the number of kept positions before `i` (41_unpuncture.md R73). -/
def refRank (p : Pattern) : Nat → Nat
  | 0 => 0
  | i + 1 => refRank p i + if refKeeps p i then 1 else 0

/-- `Kept(T, P)` by the closed forms of R63. -/
def refKept : Pattern → Nat → Nat
  | .lsf, T => T / 61 * 46 + (T % 61 - (T % 61 + 1) / 4)
  | .pkt, T => T / 8 * 7 + min (T % 8) 7
  | .str, T => T / 12 * 11 + min (T % 12) 11
  | .raw, T => T

/-- The rows of R57's table, `(s, (G1, G2, next) at b = 0, (G1, G2, next) at b = 1)`. -/
def trellisRows : List (Nat × (Bool × Bool × Nat) × (Bool × Bool × Nat)) :=
  [(0, (false, false, 0), (true, true, 8)), (1, (true, true, 0), (false, false, 8)),
   (2, (true, false, 1), (false, true, 9)), (3, (false, true, 1), (true, false, 9))] ++
  [(4, (false, true, 2), (true, false, 10)), (5, (true, false, 2), (false, true, 10)),
   (6, (true, true, 3), (false, false, 11)), (7, (false, false, 3), (true, true, 11))] ++
  [(8, (false, true, 4), (true, false, 12)), (9, (true, false, 4), (false, true, 12)),
   (10, (true, true, 5), (false, false, 13)), (11, (false, false, 5), (true, true, 13))] ++
  [(12, (false, false, 6), (true, true, 14)), (13, (true, true, 6), (false, false, 14)),
   (14, (true, false, 7), (false, true, 15)), (15, (false, true, 7), (true, false, 15))]

/-- The PAT value of a pattern (30_encoding.md R40). -/
def patNumber : Pattern → Nat
  | .lsf => 0
  | .pkt => 1
  | .str => 2
  | .raw => 3

/-- The ENCODE command of a pattern. -/
def encOf : Pattern → BitVec 8 → BitVec 3 → Instr
  | .lsf => .encLsf
  | .pkt => .encPkt
  | .str => .encStr
  | .raw => .encRaw

/-- The UNPUNCTURE command of a pattern. -/
def unpOf : Pattern → BitVec 8 → BitVec 3 → Instr
  | .lsf => .unpLsf
  | .pkt => .unpPkt
  | .str => .unpStr
  | .raw => .unpRaw

/-- The STATUS bits of a successful completion (30_encoding.md R50). -/
structure CompletedOk (t : State) : Prop where
  busy : t.busy = false
  done : t.done = true
  errcode : t.errcode = .ok

/-- What an ENCODE command `mk len fb` with pattern `p` does on every state (40_encode.md R52 to R63, R67): it answers
a next state in which every kept code bit stands in OBUF at the number of kept positions before it, every later cell of
OBUF is 0, and OUTCNT and STATUS are as the spec says; and its frame: nothing outside the 68 bytes of OBUF changes, nor
any other register; the shift register and the puncture index are at 0 (R18, R19). -/
def EncodeResultOf (p : Pattern) (mk : BitVec 8 → BitVec 3 → Instr) : Prop :=
  ∀ (s : State) (len : BitVec 8) (fb : BitVec 3), 1 ≤ len.toNat → len.toNat ≤ 32 →
    let n := 8 * (len.toNat - 1) + fb.toNat + 1
    let T := 2 * (n + 4)
    ∃ t, exec (mk len fb) s = .next t ∧
      (∀ i, i < T → refKeeps p i = true → t.obufBit (refRank p i) = refCode s n i) ∧
      (∀ k, refKept p T ≤ k → k < 544 → t.obufBit k = false) ∧
      t.outCount.toNat = refKept p T ∧ t.inCount.toNat = n ∧ CompletedOk t ∧ t.sr = 0#4 ∧ t.pidx = 0 ∧
      SameBytesOutside obufBase obufSize s t ∧ KeptByCommand s t

/-- What an UNPUNCTURE command `mk len fb` with pattern `p` does on every state (41_unpuncture.md R72 to R75), and its
frame: nothing outside the 1040 bytes of SOBUF changes, nor any other register. -/
def UnpunctureResultOf (p : Pattern) (mk : BitVec 8 → BitVec 3 → Instr) : Prop :=
  ∀ (s : State) (len : BitVec 8) (fb : BitVec 3), 1 ≤ len.toNat → len.toNat ≤ 32 →
    let T := 2 * (8 * (len.toNat - 1) + fb.toNat + 1 + 4)
    ∃ t, exec (mk len fb) s = .next t ∧
      (∀ i, i < 520 →
        t.sobuf i = if i < T ∧ refKeeps p i = true then s.sibuf (refRank p i) else 0x7FFF#16) ∧
      t.outCount.toNat = T ∧ t.inCount.toNat = refKept p T ∧ CompletedOk t ∧ t.sr = s.sr ∧ t.pidx = 0 ∧
      SameBytesOutside sobufBase softSize s t ∧ KeptByCommand s t

/-! ## The host's side -/

/-- No host access is due before the engine: it may move now (R104). -/
def HostMayMove (s : State) : Prop := s.resetAsserted = false ∧ (s.busy = true → s.latencyLeft ≠ 0)

/-- A host event that is no reset, neither of the input nor by CTRL.SRST. -/
def noReset : HostEvent → Bool
  | .write off bytes v => !(decide (off = 0x0004#13) && decide (bytes = 4) && v.getLsbD 1)
  | .read _ _ => true
  | .poll _ _ _ => true
  | .waitIrq => true
  | .assertReset => false
  | .releaseReset => false

end Sys2Proof.Machine
end

