-- ==== Sys2Proof/Certificates/Slice0/Obligations.lean ====
section
/-! DEFINITION. Sys2Proof/Certificates/Slice0/Obligations.lean: the statements for the provers. -/

open Sys2Proof Sys2Proof.Machine

/-! ## Words -/

/-- The six words of 30_encoding.md R46, each the encoding of its expansion and decoded to it. -/
def Obligations.FramePseudoInstructionWords : Prop :=
  (encode (.encLsf 30#8 7#3) = 0x00001E70#32 ∧ decode 0x00001E70#32 = .ok (.encLsf 30#8 7#3) ∧
    encLsfFrame = .encLsf 30#8 7#3) ∧
  (encode (.encPkt 26#8 5#3) = 0x00001A54#32 ∧ decode 0x00001A54#32 = .ok (.encPkt 26#8 5#3) ∧
    encPktFrame = .encPkt 26#8 5#3) ∧
  (encode (.encStr 18#8 7#3) = 0x00001278#32 ∧ decode 0x00001278#32 = .ok (.encStr 18#8 7#3) ∧
    encStrFrame = .encStr 18#8 7#3) ∧
  (encode (.unpLsf 30#8 7#3) = 0x00001E71#32 ∧ decode 0x00001E71#32 = .ok (.unpLsf 30#8 7#3) ∧
    unpLsfFrame = .unpLsf 30#8 7#3) ∧
  (encode (.unpPkt 26#8 5#3) = 0x00001A55#32 ∧ decode 0x00001A55#32 = .ok (.unpPkt 26#8 5#3) ∧
    unpPktFrame = .unpPkt 26#8 5#3) ∧
  (encode (.unpStr 18#8 7#3) = 0x00001279#32 ∧ decode 0x00001279#32 = .ok (.unpStr 18#8 7#3) ∧
    unpStrFrame = .unpStr 18#8 7#3)

/-- Decoding the encoding of any command gives the command back, at every LEN and every FB (R38, R44). -/
def Obligations.DecodeInvertsEncode : Prop :=
  ∀ i : Instr, decode (encode i) = .ok i

/-- Every word that decodes has one meaning: it is the encoding of its command, and it matches its row of R44's table
under the mask. -/
def Obligations.EncodeInvertsDecode : Prop :=
  ∀ (w : Word) (i : Instr), decode w = .ok i → encode i = w ∧ w &&& rowMask = i.rowMatch

/-- Decoding is total (R44). A word with bit 7 and bits 31:16 zero and OP 0 or 1 names the command of its OP and PAT,
with L = w[15:8] and FB = w[6:4]; it meets that row's match under the mask, it is (L << 8) | (FB << 4) | (PAT << 2) | OP,
and its validation checks L. Every other word names none, and completes at its CMD write with the error its validation
gives. -/
def Obligations.DecodingIsTotal : Prop :=
  ∀ w : Word,
    (w.toNat / 2 ^ 7 % 2 = 0 ∧ w.toNat / 2 ^ 16 = 0 ∧ w.toNat % 4 < 2 →
      ∃ (p : Pattern) (L : BitVec 8) (FB : BitVec 3) (i : Instr),
        patNumber p = w.toNat / 2 ^ 2 % 2 ^ 2 ∧ L.toNat = w.toNat / 2 ^ 8 % 2 ^ 8 ∧
        FB.toNat = w.toNat / 2 ^ 4 % 2 ^ 3 ∧ i = (if w.toNat % 4 = 0 then encOf p L FB else unpOf p L FB) ∧
        decode w = .ok i ∧ w &&& 0xFFFF008F#32 = i.rowMatch ∧ i.rowMatch.toNat = 4 * patNumber p + w.toNat % 4 ∧
        w.toNat = 2 ^ 8 * L.toNat + 2 ^ 4 * FB.toNat + 2 ^ 2 * patNumber p + w.toNat % 4 ∧
        validate w = if L.toNat = 0 ∨ 32 < L.toNat then .len else .ok) ∧
    (¬(w.toNat / 2 ^ 7 % 2 = 0 ∧ w.toNat / 2 ^ 16 = 0 ∧ w.toNat % 4 < 2) →
      validate w ≠ .ok ∧ decode w = .error (validate w) ∧
      ∀ s : State, s.busy = false →
        (hostWrite 0x0008#13 4 w s).errcode = validate w ∧ (hostWrite 0x0008#13 4 w s).done = true ∧
        (hostWrite 0x0008#13 4 w s).busy = false)

/-- The fixed order of validation, the first failure only, on the word as a number (60_exceptions.md R83). -/
def Obligations.ValidationReportsFirstFailure : Prop :=
  ∀ w : Word,
    validate w =
      if w.toNat / 2 ^ 7 % 2 ≠ 0 ∨ w.toNat / 2 ^ 16 ≠ 0 then .rsvd
      else if w.toNat % 4 = 2 ∨ w.toNat % 4 = 3 then .op
      else if w.toNat / 2 ^ 8 % 2 ^ 8 = 0 ∨ 32 < w.toNat / 2 ^ 8 % 2 ^ 8 then .len
      else .ok

/-- Validation accepts exactly the words of well-formed commands (R42, R43). -/
def Obligations.AcceptedWordsAreWellFormedCommands : Prop :=
  ∀ w : Word, validate w = .ok ↔ ∃ i, decode w = .ok i ∧ 1 ≤ i.len.toNat ∧ i.len.toNat ≤ 32

/-- The assembler (R45): an L of 1 to 32 and an FB of 0 to 7 give a word that decodes to that command and passes
validation; any other operand is refused. -/
def Obligations.AssemblerGivesAcceptedWords : Prop :=
  assemble .encPkt 26 5 = some 0x00001A54#32 ∧
  ∀ (p : Pattern) (mk : BitVec 8 → BitVec 3 → Instr), mk = encOf p ∨ mk = unpOf p → ∀ L FB : Nat,
    (1 ≤ L ∧ L ≤ 32 ∧ FB ≤ 7 → ∃ w, assemble mk L FB = some w ∧ validate w = .ok ∧
      ∃ i, decode w = .ok i ∧ i = mk (BitVec.ofNat 8 L) (BitVec.ofNat 3 FB) ∧ i.len.toNat = L ∧ i.fb.toNat = FB) ∧
    (¬(1 ≤ L ∧ L ≤ 32 ∧ FB ≤ 7) → assemble mk L FB = none)

/-! ## The commands -/

/-- ENC.LSF, ENC.PKT, ENC.STR and ENC.RAW (40_encode.md R52 to R63, R67 to R71; STATUS by 30_encoding.md R50, the shift
register by 10_state.md R18): each answers a next state holding the
punctured code word of its input, by the spec's index forms, and changes nothing else (the frame). That the puncture
index is 0 after the command is read from 10_state.md R19 by log 10 (DEDUCED). -/
def Obligations.EncodeWritesPuncturedCodeWord : Prop :=
  EncodeResultOf .lsf Instr.encLsf ∧ EncodeResultOf .pkt Instr.encPkt ∧
  EncodeResultOf .str Instr.encStr ∧ EncodeResultOf .raw Instr.encRaw

/-- UNP.LSF, UNP.PKT, UNP.STR and UNP.RAW (41_unpuncture.md R72 to R79): each answers a next state in which all 520
entries of SOBUF are the SoftBits of SIBUF at the kept positions and the erasure value everywhere else, and changes
nothing else (the frame). That the shift register is unchanged and the puncture index 0 after the command is read from
10_state.md R18 and R19 by log 10 (DEDUCED). -/
def Obligations.UnpunctureSpreadsSoftBits : Prop :=
  UnpunctureResultOf .lsf Instr.unpLsf ∧ UnpunctureResultOf .pkt Instr.unpPkt ∧
  UnpunctureResultOf .str Instr.unpStr ∧ UnpunctureResultOf .raw Instr.unpRaw

/-- The model's reading (log 8) of a command whose LEN is 0 or above 32 at the engine, which acceptance never lets
through: each of the eight is turned away with the command error ERR_LEN and the effect of 60_exceptions.md R84, and
nothing else changes. -/
def Obligations.IllegalLengthIsTurnedAway : Prop :=
  ∀ (i : Instr) (s : State), i.len.toNat = 0 ∨ 32 < i.len.toNat →
    ∃ t, exec i s = .next t ∧ t.errcode = .len ∧ t.done = true ∧ t.busy = false ∧ t.outCount = 0#10 ∧
      t.inCount = 0#10 ∧ SameBytes s t ∧ KeptByCommand s t ∧ t.sr = s.sr ∧ t.pidx = s.pidx

/-- The number of kept bits (R63): the ones of the four patterns, the closed forms, the length of the punctured stream,
never 0 for a code word (T from 10) and never above T, which is at most 520. -/
def Obligations.KeptCountClosedForm : Prop :=
  (ones (patternEntries .lsf) = 46 ∧ ones (patternEntries .pkt) = 7 ∧ ones (patternEntries .str) = 11 ∧
    ones (patternEntries .raw) = 1) ∧
  ∀ (p : Pattern) (c : List Bool),
    kept c.length (patternEntries p) =
      c.length / (patternEntries p).length * ones (patternEntries p) +
        ones ((patternEntries p).take (c.length % (patternEntries p).length)) ∧
    kept c.length (patternEntries p) = refKept p c.length ∧
    (puncture c (patternEntries p)).length = refKept p c.length ∧
    refKept p c.length ≤ c.length ∧ (10 ≤ c.length → 0 < refKept p c.length) ∧
    ∀ (len : BitVec 8) (fb : BitVec 3), len.toNat ≤ 32 → 10 ≤ codeLength len fb ∧ codeLength len fb ≤ 520

/-- The three frames of the source and their geometry (R64): n, T and OUT. -/
def Obligations.FrameGeometries : Prop :=
  (inputCount 30#8 7#3 = 240 ∧ codeLength 30#8 7#3 = 488 ∧ kept 488 (patternEntries .lsf) = 368) ∧
  (inputCount 26#8 5#3 = 206 ∧ codeLength 26#8 5#3 = 420 ∧ kept 420 (patternEntries .pkt) = 368) ∧
  (inputCount 18#8 7#3 = 144 ∧ codeLength 18#8 7#3 = 296 ∧ kept 296 (patternEntries .str) = 272)

/-- The shift-register form (R57) gives the code word of the sliding window (R55, R56), ends in state 0, and its steps
are the rows of the table of 16 states. -/
def Obligations.ShiftRegisterFormIsTheCode : Prop :=
  (∀ u : List Bool, srEncode 0#4 (u ++ List.replicate 4 false) = convEncode u ∧ srAfter u = 0#4) ∧
  trellisRows.map Prod.fst = List.range 16 ∧
  ∀ r ∈ trellisRows,
    (srOutput (BitVec.ofNat 4 r.1) false = (r.2.1.1, r.2.1.2.1) ∧
      (srNext (BitVec.ofNat 4 r.1) false).toNat = r.2.1.2.2) ∧
    (srOutput (BitVec.ofNat 4 r.1) true = (r.2.2.1, r.2.2.2.1) ∧
      (srNext (BitVec.ofNat 4 r.1) true).toNat = r.2.2.2.2)

/-- The punctured code is linear over GF(2), an all-zero input gives an all-zero output, and a code bit depends only on
the input bits at most 4 steps before it (R66). -/
def Obligations.PuncturedCodeIsLinear : Prop :=
  (∀ (p : Pattern) (u v : List Bool), u.length = v.length →
    puncture (convEncode (List.zipWith xor u v)) (patternEntries p) =
      List.zipWith xor (puncture (convEncode u) (patternEntries p)) (puncture (convEncode v) (patternEntries p))) ∧
  (∀ (p : Pattern) (n : Nat), ∀ b ∈ puncture (convEncode (List.replicate n false)) (patternEntries p), b = false) ∧
  (∀ (u v : List Bool) (i : Nat), u.length = v.length →
    (∀ j, j ≤ i / 2 → i / 2 ≤ j + 4 → u[j]? = v[j]?) → (convEncode u)[i]? = (convEncode v)[i]?)

/-- Bits an ENCODE command does not take never affect its output (R65): two states that agree on the `n` taken bits
give the same OBUF and the same OUTCNT, whatever else differs between them. -/
def Obligations.UntakenBitsDoNotAffectOutput : Prop :=
  ∀ (p : Pattern) (len : BitVec 8) (fb : BitVec 3) (s s' : State), 1 ≤ len.toNat → len.toNat ≤ 32 →
    (∀ j, j < 8 * (len.toNat - 1) + fb.toNat + 1 → refInput s j = refInput s' j) →
    ∃ t t', exec (encOf p len fb) s = .next t ∧ exec (encOf p len fb) s' = .next t' ∧
      (∀ a, inObuf a → t.byteAt a = t'.byteAt a) ∧ t.outCount = t'.outCount ∧ t.inCount = t'.inCount

/-- SIBUF entries from M on are not read (R75, I17): two states that agree on `SIBUF[0 .. M-1]` give the same SOBUF and
OUTCNT. -/
def Obligations.UnreadSoftBitsDoNotAffectOutput : Prop :=
  ∀ (p : Pattern) (len : BitVec 8) (fb : BitVec 3) (s s' : State), 1 ≤ len.toNat → len.toNat ≤ 32 →
    (∀ k, k < refKept p (2 * (8 * (len.toNat - 1) + fb.toNat + 1 + 4)) → s.sibuf k = s'.sibuf k) →
    ∃ t t', exec (unpOf p len fb) s = .next t ∧ exec (unpOf p len fb) s' = .next t' ∧
      (∀ a, inSobuf a → t.byteAt a = t'.byteAt a) ∧ t.outCount = t'.outCount ∧ t.inCount = t'.inCount

/-- UNPUNCTURE inverts the puncturing of ENCODE on hard decisions (R80): if SIBUF holds the hard decisions of the
output of an ENCODE command, the UNPUNCTURE command of the same operands gives those of the code word at the kept
positions and erasures at the others. -/
def Obligations.UnpunctureInvertsPuncturing : Prop :=
  ∀ (p : Pattern) (len : BitVec 8) (fb : BitVec 3) (s t s' : State), 1 ≤ len.toNat → len.toNat ≤ 32 →
    exec (encOf p len fb) s = .next t →
    (∀ k, k < t.outCount.toNat → s'.sibuf k = if t.obufBit k then 0xFFFF#16 else 0x0000#16) →
    let n := 8 * (len.toNat - 1) + fb.toNat + 1
    ∃ t', exec (unpOf p len fb) s' = .next t' ∧ ∀ i, i < 2 * (n + 4) →
      t'.sobuf i =
        if refKeeps p i then (if refCode s n i then 0xFFFF#16 else 0x0000#16) else 0x7FFF#16

/-- No command writes an input buffer, LCMD, CTRL or OVR, whatever the command (10_state.md R13, R15); every command
answers a next state in which the engine is idle and DONE is 1. -/
def Obligations.EveryCommandLeavesInputsAndEndsIdle : Prop :=
  ∀ (i : Instr) (s : State), ∃ t, exec i s = .next t ∧ t.busy = false ∧ t.done = true ∧
    (∀ a, inIbuf a ∨ inSibuf a → t.byteAt a = s.byteAt a) ∧ KeptByCommand s t

/-! ## Issuing a command -/

/-- A CMD write while idle (R48, R84): the word is latched; a valid one makes the engine busy, an invalid one completes
at once with the error its validation gives; OVR, CTRL and every buffer keep their values. -/
def Obligations.CommandIssueWhileIdle : Prop :=
  ∀ (w : Word) (s : State), s.busy = false →
    let t := hostWrite 0x0008#13 4 w s
    t.lcmd = w ∧ t.outCount = 0#10 ∧ t.inCount = 0#10 ∧ t.ovr = s.ovr ∧ t.ie = s.ie ∧ SameBytes s t ∧
    t.response = some .writeOk ∧
    (validate w = .ok → t.busy = true ∧ t.done = false ∧ t.errcode = .ok) ∧
    (validate w ≠ .ok → t.busy = false ∧ t.done = true ∧ t.errcode = validate w)

/-- A CMD write while busy is dropped: OVR is set and nothing else of the block changes (R49). -/
def Obligations.CommandIssueWhileBusyIsDropped : Prop :=
  ∀ (w : Word) (s : State), s.busy = true →
    hostWrite 0x0008#13 4 w s = { s with ovr := true, response := some .writeOk }

/-- IBUF, SIBUF and CMD writes while busy are dropped with OVR; CTRL and STATUS writes never are (R35): they have the
effects of 10_state.md R9 and R11 and, with SRST, those of 70_reset_and_hazards.md R98. That the puncture index is 0 after
a soft reset, part of `AtReset`, is log 10 (DEDUCED). -/
def Obligations.InputWritesWhileBusyAreDropped : Prop :=
  (∀ (off : BitVec 13) (v : Word) (s : State), s.busy = true → off.toNat % 4 = 0 →
    inIbuf off.toNat ∨ inSibuf off.toNat ∨ off = 0x0008#13 →
    hostWrite off 4 v s = { s with ovr := true, response := some .writeOk }) ∧
  (∀ (v : Word) (s : State),
    (v.getLsbD 1 = false → (hostWrite 0x0004#13 4 v s).ie = v.getLsbD 0) ∧
    (v.getLsbD 1 = true → AtReset (hostWrite 0x0004#13 4 v s)) ∧
    (v.getLsbD 1 = true → (hostWrite 0x000C#13 4 v s).done = false) ∧
    (v.getLsbD 2 = true → (hostWrite 0x000C#13 4 v s).ovr = false))

/-- A STATUS read after a CMD write sees BUSY or DONE; and of the host's and the engine's events only a STATUS write
with bit 1, a soft reset or a hardware reset leaves neither (70_reset_and_hazards.md R103). -/
def Obligations.NeverIdleWithoutDoneAfterCommand : Prop :=
  (∀ (w : Word) (s : State), (hostWrite 0x0008#13 4 w s).busy = true ∨ (hostWrite 0x0008#13 4 w s).done = true) ∧
  ∀ s t : State, step s = .next t → s.busy = true ∨ s.done = true → t.busy = false → t.done = false →
    (∃ (off : BitVec 13) (v : Word) (rest : List HostEvent), s.pending = .write off 4 v :: rest ∧
      (off = 0x000C#13 ∨ off = 0x0004#13) ∧ v.getLsbD 1 = true) ∨
    ∃ rest, s.pending = .assertReset :: rest

/-! ## The window -/

/-- IBUF word packing (R27): a word write sets the four bytes at once, lane `j` to byte `4q + j`, and no other byte; a
read returns them. -/
def Obligations.IbufWordPacking : Prop :=
  ∀ (q : Nat) (v : Word) (s : State), q < 8 →
    (s.busy = false →
      let t := hostWrite (BitVec.ofNat 13 (0x0040 + 4 * q)) 4 v s
      (∀ j, j < 4 → t.ibuf (4 * q + j) = v.extractLsb' (8 * j) 8) ∧
      SameBytesOutside (0x0040 + 4 * q) 4 s t ∧ SameRegisters s t) ∧
    (hostRead (BitVec.ofNat 13 (0x0040 + 4 * q)) 4 s).response =
      some (.readOk (s.ibuf (4 * q + 3) ++ s.ibuf (4 * q + 2) ++ s.ibuf (4 * q + 1) ++ s.ibuf (4 * q)))

/-- OBUF word packing (R28): while idle, code bit `k` is read at bus bit `8 (floor(k/8) mod 4) + 7 - (k mod 8)` of the
word at `0x0080 + 4 floor(k / 32)`. -/
def Obligations.ObufWordPacking : Prop :=
  ∀ (k : Nat) (s : State), k < 544 → s.busy = false →
    ∃ d, (hostRead (BitVec.ofNat 13 (0x0080 + 4 * (k / 32))) 4 s).response = some (.readOk d) ∧
      d.getLsbD (8 * (k / 8 % 4) + 7 - k % 8) = s.obufBit k

/-- SIBUF and SOBUF word packing (R29): entry `2q` in bits 15:0, entry `2q + 1` in bits 31:16; a SIBUF write while idle
sets both and no other byte, a SOBUF write is ignored. -/
def Obligations.SoftBufferWordPacking : Prop :=
  ∀ (q : Nat) (v : Word) (s : State), q < 260 →
    (s.busy = false →
      let t := hostWrite (BitVec.ofNat 13 (0x0400 + 4 * q)) 4 v s
      t.sibuf (2 * q) = v.extractLsb' 0 16 ∧ t.sibuf (2 * q + 1) = v.extractLsb' 16 16 ∧
      SameBytesOutside (0x0400 + 4 * q) 4 s t ∧ SameRegisters s t ∧
      (hostRead (BitVec.ofNat 13 (0x0C00 + 4 * q)) 4 s).response =
        some (.readOk (s.sobuf (2 * q + 1) ++ s.sobuf (2 * q)))) ∧
    (hostRead (BitVec.ofNat 13 (0x0400 + 4 * q)) 4 s).response =
      some (.readOk (s.sibuf (2 * q + 1) ++ s.sibuf (2 * q))) ∧
    hostWrite (BitVec.ofNat 13 (0x0C00 + 4 * q)) 4 v s = { s with response := some .writeOk }

/-- The five registers as read (10_state.md R8 to R12): every field in its place, every reserved bit 0. -/
def Obligations.RegisterReadWords : Prop :=
  ∀ s : State,
    (hostRead 0x0000#13 4 s).response = some (.readOk 0x4D170501#32) ∧
    (hostRead 0x0008#13 4 s).response = some (.readOk s.lcmd) ∧
    (∃ d, (hostRead 0x0004#13 4 s).response = some (.readOk d) ∧ d.toNat = s.ie.toNat) ∧
    (∃ d, (hostRead 0x000C#13 4 s).response = some (.readOk d) ∧
      d.toNat = s.busy.toNat + 2 * s.done.toNat + 4 * s.ovr.toNat + 256 * s.errcode.code.toNat) ∧
    (∃ d, (hostRead 0x0010#13 4 s).response = some (.readOk d) ∧
      d.toNat = s.outCount.toNat + 65536 * s.inCount.toNat)

/-- The error response (R23 to R25): an access of another width, a misaligned one or one at an unmapped offset changes
no state of the block; `response` is the bus's own and `draws` only counts the undefined data word. -/
def Obligations.BusErrorHasNoEffect : Prop :=
  ∀ (off : BitVec 13) (bytes : Nat) (v : Word) (s : State),
    bytes ≠ 4 ∨ off.toNat % 4 ≠ 0 ∨ ¬ mappedOffset off.toNat →
    hostWrite off bytes v s = { s with response := some .writeError } ∧
    ∃ d, hostRead off bytes s = { s with response := some (.readError d), draws := s.draws + 1 }

/-- Every aligned 32-bit access at an offset the map R22 lists gets the normal response, whatever the state. -/
def Obligations.MappedAccessesAreServed : Prop :=
  ∀ (off : BitVec 13) (v : Word) (s : State), off.toNat % 4 = 0 → mappedOffset off.toNat →
    (hostWrite off 4 v s).response = some .writeOk ∧ ∃ d, (hostRead off 4 s).response = some (.readOk d)

/-- Writes to read-only locations change nothing (R26): ID, OUTCNT, OBUF and SOBUF words, and the read-only and
reserved bits of STATUS and CTRL. A read of a mapped location has no side effect on any state of the block (`response`
is the bus's own, `draws` the model's count of open values). -/
def Obligations.ReadOnlyWritesAreIgnored : Prop :=
  (∀ (off : BitVec 13) (v : Word) (s : State), off.toNat % 4 = 0 →
    off = 0x0000#13 ∨ off = 0x0010#13 ∨ inObuf off.toNat ∨ inSobuf off.toNat →
    hostWrite off 4 v s = { s with response := some .writeOk }) ∧
  (∀ (v v' : Word) (s : State), v.getLsbD 1 = v'.getLsbD 1 → v.getLsbD 2 = v'.getLsbD 2 →
    hostWrite 0x000C#13 4 v s = hostWrite 0x000C#13 4 v' s) ∧
  (∀ (v v' : Word) (s : State), v.getLsbD 0 = v'.getLsbD 0 → v.getLsbD 1 = v'.getLsbD 1 →
    hostWrite 0x0004#13 4 v s = hostWrite 0x0004#13 4 v' s) ∧
  (∀ (off : BitVec 13) (s : State), off.toNat % 4 = 0 → mappedOffset off.toNat →
    ∃ d n, hostRead off 4 s = { s with response := some (.readOk d), draws := n })

/-- An output-buffer read while busy returns a word the block leaves open and changes nothing; every buffer read while
idle, and an input-buffer read at any time, returns the current contents (R34). -/
def Obligations.BufferReadsByEngineState : Prop :=
  ∀ (off : BitVec 13) (s : State), off.toNat % 4 = 0 →
    (s.busy = true → inObuf off.toNat ∨ inSobuf off.toNat →
      ∃ d, hostRead off 4 s = { s with response := some (.readOk d), draws := s.draws + 1 }) ∧
    (s.busy = false → inBuffer off.toNat →
      hostRead off 4 s = { s with response := some (.readOk (s.wordAt off.toNat)) }) ∧
    (inIbuf off.toNat ∨ inSibuf off.toNat →
      hostRead off 4 s = { s with response := some (.readOk (s.wordAt off.toNat)) })

/-- Repeating an IBUF, SIBUF, STATUS or CTRL (SRST = 0) write with the same data has the effect of doing it once
(R31). -/
def Obligations.RepeatedWritesAreIdempotent : Prop :=
  ∀ (off : BitVec 13) (v : Word) (s : State),
    inIbuf off.toNat ∨ inSibuf off.toNat ∨ off = 0x000C#13 ∨ (off = 0x0004#13 ∧ v.getLsbD 1 = false) →
    hostWrite off 4 v (hostWrite off 4 v s) = hostWrite off 4 v s

/-! ## Status, interrupt, resets -/

/-- A STATUS write (10_state.md R11): bit 1 clears DONE, bit 2 clears OVR, and nothing else of the block changes. -/
def Obligations.StatusWriteClearsOnly : Prop :=
  ∀ (v : Word) (s : State),
    hostWrite 0x000C#13 4 v s =
      { s with done := (if v.getLsbD 1 then false else s.done), ovr := (if v.getLsbD 2 then false else s.ovr),
               response := some .writeOk }

/-- A CTRL write (10_state.md R9): with SRST = 0 it sets IE and changes nothing else; with SRST = 1 IE is 0 after it,
whatever its bit, and the soft reset is performed; accepted whether or not the engine is busy; it reads as IE in bit 0
and zeros; IE resets to 0. What the soft reset leaves is 70_reset_and_hazards.md R98's; that the puncture index is among
it is log 10 (DEDUCED). -/
def Obligations.ControlWrite : Prop :=
  State.reset.ie = false ∧
  ∀ (v : Word) (s : State),
    (∃ d, (hostRead 0x0004#13 4 s).response = some (.readOk d) ∧ d.toNat = s.ie.toNat) ∧
    (v.getLsbD 1 = false → hostWrite 0x0004#13 4 v s = { s with ie := v.getLsbD 0, response := some .writeOk }) ∧
    (v.getLsbD 1 = true → hostWrite 0x0004#13 4 v s = { softReset s with response := some .writeOk } ∧
      AtReset (hostWrite 0x0004#13 4 v s))

/-- The soft reset (70_reset_and_hazards.md R98, R99): registers and engine as at reset, irq 0, the input buffers kept;
the output buffers kept too, but the one of the family of a command it abandons (R99). That the puncture index is 0
after it, part of `AtReset`, is log 10 (DEDUCED). -/
def Obligations.SoftResetKeepsBuffers : Prop :=
  ∀ (v : Word) (s : State), v.getLsbD 1 = true →
    let t := hostWrite 0x0004#13 4 v s
    AtReset t ∧ t.irq = false ∧ (∀ a, inIbuf a ∨ inSibuf a → t.byteAt a = s.byteAt a) ∧
    (s.busy = false → SameBytes s t) ∧
    (s.busy = true → opField s.lcmd = 0#2 → SameBytesOutside obufBase obufSize s t) ∧
    (s.busy = true → opField s.lcmd = 1#2 → SameBytesOutside sobufBase softSize s t)

/-- irq is raised, while IE = 1, by the completion of any command (LEN 1 to 32, as every accepted one has) and by a
command error, and by setting IE while DONE is 1 (60_exceptions.md R85). -/
def Obligations.InterruptIsRaisedByCompletion : Prop :=
  (∀ (i : Instr) (s : State), 1 ≤ i.len.toNat → i.len.toNat ≤ 32 → ∃ t, exec i s = .next t ∧ t.irq = s.ie) ∧
  (∀ (w : Word) (s : State), s.busy = false → validate w ≠ .ok → (hostWrite 0x0008#13 4 w s).irq = s.ie) ∧
  (∀ (v : Word) (s : State), v.getLsbD 1 = false → (hostWrite 0x0004#13 4 v s).irq = (v.getLsbD 0 && s.done)) ∧
  ∀ s : State, s.irq = true ↔ s.ie = true ∧ s.done = true

/-- irq is deasserted by writing 1 to DONE, by writing 0 to IE, by the acceptance of a command and by a reset; the
acknowledgement changes neither ERRCODE, OUTCNT nor any byte (60_exceptions.md R86). -/
def Obligations.InterruptIsDeasserted : Prop :=
  ∀ (v : Word) (s : State),
    (v.getLsbD 1 = true →
      let t := hostWrite 0x000C#13 4 v s
      t.irq = false ∧ t.errcode = s.errcode ∧ t.outCount = s.outCount ∧ t.inCount = s.inCount ∧ SameBytes s t) ∧
    (v.getLsbD 0 = false → (hostWrite 0x0004#13 4 v s).irq = false) ∧
    (v.getLsbD 1 = true → (hostWrite 0x0004#13 4 v s).irq = false) ∧
    (s.busy = false → validate v = .ok → (hostWrite 0x0008#13 4 v s).irq = false) ∧
    (hardReset s).irq = false

/-- A hardware reset leaves the state of R94 and R96, whatever the block held before. -/
def Obligations.HardwareResetState : Prop :=
  AtReset State.reset ∧ State.reset.irq = false ∧
  ∀ s : State,
    AtReset (hardReset s) ∧ (hardReset s).irq = false ∧
    (hostRead 0x0000#13 4 (hardReset s)).response = some (.readOk 0x4D170501#32)

/-- The assertion of the reset input is one step, to the state of a hardware reset, busy or not (R87, R94). That it is an
event of the list, taken off it, is the choice of log 5, and that it comes before the completion while some latency is
left that of log 4. -/
def Obligations.HardwareResetIsOneStep : Prop :=
  ∀ (s : State) (rest : List HostEvent), s.pending = .assertReset :: rest → HostMayMove s →
    ∃ t, step s = .next t ∧ t = hardReset { s with pending := rest } ∧ AtReset t ∧ t.irq = false ∧
      t.pending = rest ∧ t.resetAsserted = true

/-- While the reset input is asserted no bus access and no completion step happens (R97): a step changes at most the
list of events and the level, by its release; a host access, a POLL's read among them, has no transition (I14, the
fault of log 6). -/
def Obligations.NothingHappensInReset : Prop :=
  ∀ s : State, s.resetAsserted = true →
    (∀ t, step s = .next t → t = { s with pending := t.pending, resetAsserted := t.resetAsserted } ∧
      (t.resetAsserted = false → ∃ rest, s.pending = .releaseReset :: rest ∧ t.pending = rest)) ∧
    (∀ (off : BitVec 13) (bytes : Nat) (v : Word) (rest : List HostEvent), s.pending = .write off bytes v :: rest →
      step s = .fault .accessDuringReset) ∧
    (∀ (off : BitVec 13) (bytes : Nat) (rest : List HostEvent), s.pending = .read off bytes :: rest →
      step s = .fault .accessDuringReset) ∧
    (∀ (off : BitVec 13) (mask value : Word) (rest : List HostEvent), s.pending = .poll off mask value :: rest →
      step s = .fault .accessDuringReset)

/-! ## The step -/

/-- When LCMD decodes to a command and the engine is due (no event pending, or no host access left before the
completion), the step of a busy block is `exec` of that command (R50). -/
def Obligations.StepPerformsDecodedCommand : Prop :=
  ∀ (s : State) (i : Instr), decode s.lcmd = .ok i → s.busy = true → s.resetAsserted = false →
    s.pending = [] ∨ (s.latencyLeft = 0 ∧ s.irq = false) → step s = exec i s

/-- A command placed where the engine fetches it is run by the very next step, from every state. -/
def Obligations.PlacedCommandRunsNext : Prop :=
  ∀ (s : State) (w : Nat) (i : Instr), w < 2 ^ 32 → decodeTableWord 32 w = some i →
    (s.withFetchWord 32 w).lcmd = BitVec.ofNat 32 w ∧
    step (s.withFetchWord 32 w) = exec i (s.withFetchWord 32 w)

/-- When the host may move, its oldest access is the step, and it is taken off the list (20_memory.md R32). -/
def Obligations.StepPerformsHostAccess : Prop :=
  ∀ (s : State) (off : BitVec 13) (bytes : Nat) (rest : List HostEvent), HostMayMove s →
    (∀ v, s.pending = .write off bytes v :: rest →
      step s = .next (hostWrite off bytes v { s with pending := rest, latencyLeft := s.latencyLeft - 1 })) ∧
    (s.pending = .read off bytes :: rest →
      step s = .next (hostRead off bytes { s with pending := rest, latencyLeft := s.latencyLeft - 1 }))

/-- POLL and WAITIRQ (30_encoding.md R47). A POLL of any offset, mask and value is one 4-byte read of the block as it
stands: it is over, taken off the list, exactly when `(data & mask) = value`, and else stays (log 5; the data of an error
response is the free word of R25), and it changes no register and no byte. So the POLL of BUSY stays while the engine is
busy and is over when it is not. WAITIRQ is over once irq is 1; while irq is 0 an idle block stays as it is (log 13) and
a busy engine completes, whatever latency is left (log 4). -/
def Obligations.PollAndWaitIrq : Prop :=
  ∀ (s : State) (rest : List HostEvent), HostMayMove s →
    (∀ (off : BitVec 13) (mask value : Word), s.pending = .poll off mask value :: rest →
      let r := hostRead off 4 { s with pending := rest, latencyLeft := s.latencyLeft - 1 }
      let t := { r with pending := if responseData r.response &&& mask = value then rest else s.pending }
      step s = .next t ∧ SameRegisters s t ∧ SameBytes s t) ∧
    (s.pending = .poll 0x000C#13 0x1#32 0x0#32 :: rest →
      ∃ t, step s = .next t ∧ t.response = some (.readOk (statusWord s)) ∧ SameRegisters s t ∧ SameBytes s t ∧
        t.pending = if s.busy then s.pending else rest) ∧
    (s.pending = .waitIrq :: rest → s.irq = true → step s = .next { s with pending := rest }) ∧
    (s.pending = .waitIrq :: rest → s.irq = false → s.busy = false → step s = .next s) ∧
    (s.pending = .waitIrq :: rest → s.irq = false → s.busy = true →
      ∃ t, step s = .next t ∧ t.busy = false ∧ t.done = true ∧ t.pending = s.pending)

/-- While idle the engine has no step, and with no event to come the block keeps its state (30_encoding.md R50,
60_exceptions.md R93). -/
def Obligations.IdleBlockKeepsItsState : Prop :=
  ∀ s : State, s.busy = false → s.resetAsserted = false → s.pending = [] → step s = .next s

/-- The invariant holds of the state after reset. -/
def Obligations.ResetMeetsInvariant : Prop := State.reset.Inv

/-- Every step keeps the invariant: canonical memory within the buffers, BUSY and DONE never both 1, a valid command in
progress, an error recorded with its word, bounded counters, the shift register at 0000, and the reset state while
the reset input is asserted. -/
def Obligations.StepKeepsInvariant : Prop :=
  ∀ s t : State, s.Inv → step s = .next t → t.Inv

/-- `STATUS.BUSY = 1 implies STATUS.DONE = 0` is kept by every step (10_state.md R11). -/
def Obligations.BusyExcludesDone : Prop :=
  ∀ s t : State, (s.busy = true → s.done = false) → step s = .next t → t.busy = true → t.done = false

/-- A busy engine completes (R50, R51): if the events to come hold no reset, the command completes within
`latencyLeft + 1` steps, whatever the host does. -/
def Obligations.BusyCommandCompletes : Prop :=
  ∀ s : State, s.busy = true → s.done = false → s.resetAsserted = false →
    (∀ e ∈ s.pending, noReset e = true) →
    ∃ k t, 1 ≤ k ∧ k ≤ s.latencyLeft + 1 ∧ Host.Core.run Sys2Proof.core k s = .next t ∧ t.busy = false ∧
      t.done = true ∧ t.lcmd = s.lcmd

/-- The inputs of a command are stable from its acceptance through its completion (20_memory.md R33, R37): no step of a
busy block that leaves it busy or completes its command changes LCMD or a byte of IBUF or SIBUF. -/
def Obligations.InputsAreStableWhileBusy : Prop :=
  ∀ s t : State, step s = .next t → s.busy = true → s.done = false → s.resetAsserted = false →
    t.busy = true ∨ t.done = true →
    t.lcmd = s.lcmd ∧ ∀ a, inIbuf a ∨ inSibuf a → t.byteAt a = s.byteAt a

/-- OVR is set only by a CMD, IBUF or SIBUF write while busy (70_reset_and_hazards.md R102): a host that waits for
BUSY = 0 before such a write never sets it. -/
def Obligations.OverrunOnlyByDroppedWrite : Prop :=
  ∀ s t : State, step s = .next t → s.ovr = false → t.ovr = true →
    s.busy = true ∧ ∃ (off : BitVec 13) (v : Word) (rest : List HostEvent), s.pending = .write off 4 v :: rest ∧
      (off = 0x0008#13 ∨ inIbuf off.toNat ∨ inSibuf off.toNat)

/-- An input-buffer byte changes only by a host write to its word while idle, or by a hardware reset (10_state.md R13,
R15). -/
def Obligations.InputBuffersChangeOnlyByHost : Prop :=
  ∀ (s t : State) (a : Nat), step s = .next t → inIbuf a ∨ inSibuf a → t.byteAt a ≠ s.byteAt a →
    (s.busy = false ∧ ∃ (off : BitVec 13) (v : Word) (rest : List HostEvent), s.pending = .write off 4 v :: rest ∧
      off.toNat % 4 = 0 ∧ off.toNat ≤ a ∧ a < off.toNat + 4) ∨
    ∃ rest, s.pending = .assertReset :: rest

/-- An output-buffer byte changes only when a command of its family ends, OBUF for OP = 0 and SOBUF for OP = 1, or by a
hardware reset (10_state.md R14, R16). -/
def Obligations.OutputBuffersChangeOnlyByTheirFamily : Prop :=
  ∀ (s t : State) (a : Nat), step s = .next t → t.byteAt a ≠ s.byteAt a →
    (inObuf a → (s.busy = true ∧ t.busy = false ∧ opField s.lcmd = 0#2) ∨ ∃ rest, s.pending = .assertReset :: rest) ∧
    (inSobuf a → (s.busy = true ∧ t.busy = false ∧ opField s.lcmd = 1#2) ∨ ∃ rest, s.pending = .assertReset :: rest)

/-- CTRL.IE changes only by a CTRL write or a hardware reset; LCMD only by a CMD write while idle, a CTRL write or a
hardware reset (10_state.md R9, R10). -/
def Obligations.ControlAndLatchChangeOnlyByHost : Prop :=
  ∀ s t : State, step s = .next t →
    (t.ie ≠ s.ie → (∃ (v : Word) (rest : List HostEvent), s.pending = .write 0x0004#13 4 v :: rest) ∨
      ∃ rest, s.pending = .assertReset :: rest) ∧
    (t.lcmd ≠ s.lcmd →
      (s.busy = false ∧ ∃ (v : Word) (rest : List HostEvent), s.pending = .write 0x0008#13 4 v :: rest ∧ t.lcmd = v) ∨
      (∃ (v : Word) (rest : List HostEvent), s.pending = .write 0x0004#13 4 v :: rest ∧ v.getLsbD 1 = true) ∨
      ∃ rest, s.pending = .assertReset :: rest)
end

