-- ==== Sys2Proof/Laws/State.lean ====
section
/-! SUPPORT. Sys2Proof/Laws/State.lean: one lemma per field per named update of State, each true by `rfl`, so that no
proof unfolds a record update. -/

namespace Sys2Proof.Machine

variable (s : State)

@[simp] theorem overrun_ie : (overrun s).ie = s.ie := rfl
@[simp] theorem overrun_lcmd : (overrun s).lcmd = s.lcmd := rfl
@[simp] theorem overrun_busy : (overrun s).busy = s.busy := rfl
@[simp] theorem overrun_done : (overrun s).done = s.done := rfl
@[simp] theorem overrun_ovr : (overrun s).ovr = true := rfl
@[simp] theorem overrun_errcode : (overrun s).errcode = s.errcode := rfl
@[simp] theorem overrun_outCount : (overrun s).outCount = s.outCount := rfl
@[simp] theorem overrun_inCount : (overrun s).inCount = s.inCount := rfl
@[simp] theorem overrun_mem : (overrun s).mem = s.mem := rfl
@[simp] theorem overrun_sr : (overrun s).sr = s.sr := rfl
@[simp] theorem overrun_pidx : (overrun s).pidx = s.pidx := rfl
@[simp] theorem overrun_resetAsserted : (overrun s).resetAsserted = s.resetAsserted := rfl
@[simp] theorem overrun_pending : (overrun s).pending = s.pending := rfl
@[simp] theorem overrun_response : (overrun s).response = s.response := rfl
@[simp] theorem overrun_latencyLeft : (overrun s).latencyLeft = s.latencyLeft := rfl
@[simp] theorem overrun_epoch : (overrun s).epoch = s.epoch := rfl
@[simp] theorem overrun_draws : (overrun s).draws = s.draws := rfl

@[simp] theorem statusWrite_ie (v : Word) : (statusWrite v s).ie = s.ie := rfl
@[simp] theorem statusWrite_lcmd (v : Word) : (statusWrite v s).lcmd = s.lcmd := rfl
@[simp] theorem statusWrite_busy (v : Word) : (statusWrite v s).busy = s.busy := rfl
@[simp] theorem statusWrite_done (v : Word) : (statusWrite v s).done = (s.done && !v.getLsbD 1) := rfl
@[simp] theorem statusWrite_ovr (v : Word) : (statusWrite v s).ovr = (s.ovr && !v.getLsbD 2) := rfl
@[simp] theorem statusWrite_errcode (v : Word) : (statusWrite v s).errcode = s.errcode := rfl
@[simp] theorem statusWrite_outCount (v : Word) : (statusWrite v s).outCount = s.outCount := rfl
@[simp] theorem statusWrite_inCount (v : Word) : (statusWrite v s).inCount = s.inCount := rfl
@[simp] theorem statusWrite_mem (v : Word) : (statusWrite v s).mem = s.mem := rfl
@[simp] theorem statusWrite_sr (v : Word) : (statusWrite v s).sr = s.sr := rfl
@[simp] theorem statusWrite_pidx (v : Word) : (statusWrite v s).pidx = s.pidx := rfl
@[simp] theorem statusWrite_resetAsserted (v : Word) : (statusWrite v s).resetAsserted = s.resetAsserted := rfl
@[simp] theorem statusWrite_pending (v : Word) : (statusWrite v s).pending = s.pending := rfl
@[simp] theorem statusWrite_response (v : Word) : (statusWrite v s).response = s.response := rfl
@[simp] theorem statusWrite_latencyLeft (v : Word) : (statusWrite v s).latencyLeft = s.latencyLeft := rfl
@[simp] theorem statusWrite_epoch (v : Word) : (statusWrite v s).epoch = s.epoch := rfl
@[simp] theorem statusWrite_draws (v : Word) : (statusWrite v s).draws = s.draws := rfl

@[simp] theorem completeOk_ie : (completeOk s).ie = s.ie := rfl
@[simp] theorem completeOk_lcmd : (completeOk s).lcmd = s.lcmd := rfl
@[simp] theorem completeOk_busy : (completeOk s).busy = false := rfl
@[simp] theorem completeOk_done : (completeOk s).done = true := rfl
@[simp] theorem completeOk_ovr : (completeOk s).ovr = s.ovr := rfl
@[simp] theorem completeOk_errcode : (completeOk s).errcode = .ok := rfl
@[simp] theorem completeOk_outCount : (completeOk s).outCount = s.outCount := rfl
@[simp] theorem completeOk_inCount : (completeOk s).inCount = s.inCount := rfl
@[simp] theorem completeOk_mem : (completeOk s).mem = s.mem := rfl
@[simp] theorem completeOk_sr : (completeOk s).sr = s.sr := rfl
@[simp] theorem completeOk_pidx : (completeOk s).pidx = s.pidx := rfl
@[simp] theorem completeOk_resetAsserted : (completeOk s).resetAsserted = s.resetAsserted := rfl
@[simp] theorem completeOk_pending : (completeOk s).pending = s.pending := rfl
@[simp] theorem completeOk_response : (completeOk s).response = s.response := rfl
@[simp] theorem completeOk_latencyLeft : (completeOk s).latencyLeft = 0 := rfl
@[simp] theorem completeOk_epoch : (completeOk s).epoch = s.epoch := rfl
@[simp] theorem completeOk_draws : (completeOk s).draws = s.draws := rfl

@[simp] theorem cmdError_ie (e : ErrCode) : (cmdError e s).ie = s.ie := rfl
@[simp] theorem cmdError_lcmd (e : ErrCode) : (cmdError e s).lcmd = s.lcmd := rfl
@[simp] theorem cmdError_busy (e : ErrCode) : (cmdError e s).busy = false := rfl
@[simp] theorem cmdError_done (e : ErrCode) : (cmdError e s).done = true := rfl
@[simp] theorem cmdError_ovr (e : ErrCode) : (cmdError e s).ovr = s.ovr := rfl
@[simp] theorem cmdError_errcode (e : ErrCode) : (cmdError e s).errcode = e := rfl
@[simp] theorem cmdError_outCount (e : ErrCode) : (cmdError e s).outCount = 0#10 := rfl
@[simp] theorem cmdError_inCount (e : ErrCode) : (cmdError e s).inCount = 0#10 := rfl
@[simp] theorem cmdError_mem (e : ErrCode) : (cmdError e s).mem = s.mem := rfl
@[simp] theorem cmdError_sr (e : ErrCode) : (cmdError e s).sr = s.sr := rfl
@[simp] theorem cmdError_pidx (e : ErrCode) : (cmdError e s).pidx = s.pidx := rfl
@[simp] theorem cmdError_resetAsserted (e : ErrCode) : (cmdError e s).resetAsserted = s.resetAsserted := rfl
@[simp] theorem cmdError_pending (e : ErrCode) : (cmdError e s).pending = s.pending := rfl
@[simp] theorem cmdError_response (e : ErrCode) : (cmdError e s).response = s.response := rfl
@[simp] theorem cmdError_latencyLeft (e : ErrCode) : (cmdError e s).latencyLeft = 0 := rfl
@[simp] theorem cmdError_epoch (e : ErrCode) : (cmdError e s).epoch = s.epoch := rfl
@[simp] theorem cmdError_draws (e : ErrCode) : (cmdError e s).draws = s.draws := rfl

@[simp] theorem accept_ie : (accept s).ie = s.ie := rfl
@[simp] theorem accept_lcmd : (accept s).lcmd = s.lcmd := rfl
@[simp] theorem accept_busy : (accept s).busy = true := rfl
@[simp] theorem accept_done : (accept s).done = s.done := rfl
@[simp] theorem accept_ovr : (accept s).ovr = s.ovr := rfl
@[simp] theorem accept_errcode : (accept s).errcode = s.errcode := rfl
@[simp] theorem accept_outCount : (accept s).outCount = 0#10 := rfl
@[simp] theorem accept_inCount : (accept s).inCount = 0#10 := rfl
@[simp] theorem accept_mem : (accept s).mem = s.mem := rfl
@[simp] theorem accept_sr : (accept s).sr = s.sr := rfl
@[simp] theorem accept_pidx : (accept s).pidx = s.pidx := rfl
@[simp] theorem accept_resetAsserted : (accept s).resetAsserted = s.resetAsserted := rfl
@[simp] theorem accept_pending : (accept s).pending = s.pending := rfl
@[simp] theorem accept_response : (accept s).response = s.response := rfl
@[simp] theorem accept_latencyLeft : (accept s).latencyLeft = Config.engineLatency s.draws := rfl
@[simp] theorem accept_epoch : (accept s).epoch = s.epoch := rfl
@[simp] theorem accept_draws : (accept s).draws = s.draws + 1 := rfl

@[simp] theorem busErrorWrite_ie : (busErrorWrite s).ie = s.ie := rfl
@[simp] theorem busErrorWrite_lcmd : (busErrorWrite s).lcmd = s.lcmd := rfl
@[simp] theorem busErrorWrite_busy : (busErrorWrite s).busy = s.busy := rfl
@[simp] theorem busErrorWrite_done : (busErrorWrite s).done = s.done := rfl
@[simp] theorem busErrorWrite_ovr : (busErrorWrite s).ovr = s.ovr := rfl
@[simp] theorem busErrorWrite_errcode : (busErrorWrite s).errcode = s.errcode := rfl
@[simp] theorem busErrorWrite_outCount : (busErrorWrite s).outCount = s.outCount := rfl
@[simp] theorem busErrorWrite_inCount : (busErrorWrite s).inCount = s.inCount := rfl
@[simp] theorem busErrorWrite_mem : (busErrorWrite s).mem = s.mem := rfl
@[simp] theorem busErrorWrite_sr : (busErrorWrite s).sr = s.sr := rfl
@[simp] theorem busErrorWrite_pidx : (busErrorWrite s).pidx = s.pidx := rfl
@[simp] theorem busErrorWrite_resetAsserted : (busErrorWrite s).resetAsserted = s.resetAsserted := rfl
@[simp] theorem busErrorWrite_pending : (busErrorWrite s).pending = s.pending := rfl
@[simp] theorem busErrorWrite_response : (busErrorWrite s).response = some .writeError := rfl
@[simp] theorem busErrorWrite_latencyLeft : (busErrorWrite s).latencyLeft = s.latencyLeft := rfl
@[simp] theorem busErrorWrite_epoch : (busErrorWrite s).epoch = s.epoch := rfl
@[simp] theorem busErrorWrite_draws : (busErrorWrite s).draws = s.draws := rfl

@[simp] theorem busErrorRead_ie : (busErrorRead s).ie = s.ie := rfl
@[simp] theorem busErrorRead_lcmd : (busErrorRead s).lcmd = s.lcmd := rfl
@[simp] theorem busErrorRead_busy : (busErrorRead s).busy = s.busy := rfl
@[simp] theorem busErrorRead_done : (busErrorRead s).done = s.done := rfl
@[simp] theorem busErrorRead_ovr : (busErrorRead s).ovr = s.ovr := rfl
@[simp] theorem busErrorRead_errcode : (busErrorRead s).errcode = s.errcode := rfl
@[simp] theorem busErrorRead_outCount : (busErrorRead s).outCount = s.outCount := rfl
@[simp] theorem busErrorRead_inCount : (busErrorRead s).inCount = s.inCount := rfl
@[simp] theorem busErrorRead_mem : (busErrorRead s).mem = s.mem := rfl
@[simp] theorem busErrorRead_sr : (busErrorRead s).sr = s.sr := rfl
@[simp] theorem busErrorRead_pidx : (busErrorRead s).pidx = s.pidx := rfl
@[simp] theorem busErrorRead_resetAsserted : (busErrorRead s).resetAsserted = s.resetAsserted := rfl
@[simp] theorem busErrorRead_pending : (busErrorRead s).pending = s.pending := rfl
@[simp] theorem busErrorRead_response : (busErrorRead s).response = some (.readError (Config.drawWord s.draws)) := rfl
@[simp] theorem busErrorRead_latencyLeft : (busErrorRead s).latencyLeft = s.latencyLeft := rfl
@[simp] theorem busErrorRead_epoch : (busErrorRead s).epoch = s.epoch := rfl
@[simp] theorem busErrorRead_draws : (busErrorRead s).draws = s.draws + 1 := rfl

@[simp] theorem clearRegisters_ie : (clearRegisters s).ie = false := rfl
@[simp] theorem clearRegisters_lcmd : (clearRegisters s).lcmd = 0#32 := rfl
@[simp] theorem clearRegisters_busy : (clearRegisters s).busy = false := rfl
@[simp] theorem clearRegisters_done : (clearRegisters s).done = false := rfl
@[simp] theorem clearRegisters_ovr : (clearRegisters s).ovr = false := rfl
@[simp] theorem clearRegisters_errcode : (clearRegisters s).errcode = .ok := rfl
@[simp] theorem clearRegisters_outCount : (clearRegisters s).outCount = 0#10 := rfl
@[simp] theorem clearRegisters_inCount : (clearRegisters s).inCount = 0#10 := rfl
@[simp] theorem clearRegisters_mem : (clearRegisters s).mem = s.mem := rfl
@[simp] theorem clearRegisters_sr : (clearRegisters s).sr = 0#4 := rfl
@[simp] theorem clearRegisters_pidx : (clearRegisters s).pidx = 0 := rfl
@[simp] theorem clearRegisters_resetAsserted : (clearRegisters s).resetAsserted = s.resetAsserted := rfl
@[simp] theorem clearRegisters_pending : (clearRegisters s).pending = s.pending := rfl
@[simp] theorem clearRegisters_response : (clearRegisters s).response = s.response := rfl
@[simp] theorem clearRegisters_latencyLeft : (clearRegisters s).latencyLeft = 0 := rfl
@[simp] theorem clearRegisters_epoch : (clearRegisters s).epoch = s.epoch := rfl
@[simp] theorem clearRegisters_draws : (clearRegisters s).draws = s.draws := rfl

@[simp] theorem hardReset_ie : (hardReset s).ie = false := rfl
@[simp] theorem hardReset_lcmd : (hardReset s).lcmd = 0#32 := rfl
@[simp] theorem hardReset_busy : (hardReset s).busy = false := rfl
@[simp] theorem hardReset_done : (hardReset s).done = false := rfl
@[simp] theorem hardReset_ovr : (hardReset s).ovr = false := rfl
@[simp] theorem hardReset_errcode : (hardReset s).errcode = .ok := rfl
@[simp] theorem hardReset_outCount : (hardReset s).outCount = 0#10 := rfl
@[simp] theorem hardReset_inCount : (hardReset s).inCount = 0#10 := rfl
@[simp] theorem hardReset_mem : (hardReset s).mem = [] := rfl
@[simp] theorem hardReset_sr : (hardReset s).sr = 0#4 := rfl
@[simp] theorem hardReset_pidx : (hardReset s).pidx = 0 := rfl
@[simp] theorem hardReset_resetAsserted : (hardReset s).resetAsserted = true := rfl
@[simp] theorem hardReset_pending : (hardReset s).pending = s.pending := rfl
@[simp] theorem hardReset_response : (hardReset s).response = none := rfl
@[simp] theorem hardReset_latencyLeft : (hardReset s).latencyLeft = 0 := rfl
@[simp] theorem hardReset_epoch : (hardReset s).epoch = s.epoch + 1 := rfl
@[simp] theorem hardReset_draws : (hardReset s).draws = s.draws := rfl

@[simp] theorem placeCommand_ie (w : Word) : (placeCommand w s).ie = s.ie := rfl
@[simp] theorem placeCommand_lcmd (w : Word) : (placeCommand w s).lcmd = w := rfl
@[simp] theorem placeCommand_busy (w : Word) : (placeCommand w s).busy = true := rfl
@[simp] theorem placeCommand_done (w : Word) : (placeCommand w s).done = false := rfl
@[simp] theorem placeCommand_ovr (w : Word) : (placeCommand w s).ovr = s.ovr := rfl
@[simp] theorem placeCommand_errcode (w : Word) : (placeCommand w s).errcode = s.errcode := rfl
@[simp] theorem placeCommand_outCount (w : Word) : (placeCommand w s).outCount = s.outCount := rfl
@[simp] theorem placeCommand_inCount (w : Word) : (placeCommand w s).inCount = s.inCount := rfl
@[simp] theorem placeCommand_mem (w : Word) : (placeCommand w s).mem = s.mem := rfl
@[simp] theorem placeCommand_sr (w : Word) : (placeCommand w s).sr = s.sr := rfl
@[simp] theorem placeCommand_pidx (w : Word) : (placeCommand w s).pidx = s.pidx := rfl
@[simp] theorem placeCommand_resetAsserted (w : Word) : (placeCommand w s).resetAsserted = false := rfl
@[simp] theorem placeCommand_pending (w : Word) : (placeCommand w s).pending = s.pending := rfl
@[simp] theorem placeCommand_response (w : Word) : (placeCommand w s).response = s.response := rfl
@[simp] theorem placeCommand_latencyLeft (w : Word) : (placeCommand w s).latencyLeft = 0 := rfl
@[simp] theorem placeCommand_epoch (w : Word) : (placeCommand w s).epoch = s.epoch := rfl
@[simp] theorem placeCommand_draws (w : Word) : (placeCommand w s).draws = s.draws := rfl

@[simp] theorem writeBytes_ie (a : Nat) (bs : List Byte) : (s.writeBytes a bs).ie = s.ie := rfl
@[simp] theorem writeBytes_lcmd (a : Nat) (bs : List Byte) : (s.writeBytes a bs).lcmd = s.lcmd := rfl
@[simp] theorem writeBytes_busy (a : Nat) (bs : List Byte) : (s.writeBytes a bs).busy = s.busy := rfl
@[simp] theorem writeBytes_done (a : Nat) (bs : List Byte) : (s.writeBytes a bs).done = s.done := rfl
@[simp] theorem writeBytes_ovr (a : Nat) (bs : List Byte) : (s.writeBytes a bs).ovr = s.ovr := rfl
@[simp] theorem writeBytes_errcode (a : Nat) (bs : List Byte) : (s.writeBytes a bs).errcode = s.errcode := rfl
@[simp] theorem writeBytes_outCount (a : Nat) (bs : List Byte) : (s.writeBytes a bs).outCount = s.outCount := rfl
@[simp] theorem writeBytes_inCount (a : Nat) (bs : List Byte) : (s.writeBytes a bs).inCount = s.inCount := rfl
@[simp] theorem writeBytes_mem (a : Nat) (bs : List Byte) : (s.writeBytes a bs).mem = s.mem.write a bs := rfl
@[simp] theorem writeBytes_sr (a : Nat) (bs : List Byte) : (s.writeBytes a bs).sr = s.sr := rfl
@[simp] theorem writeBytes_pidx (a : Nat) (bs : List Byte) : (s.writeBytes a bs).pidx = s.pidx := rfl
@[simp] theorem writeBytes_resetAsserted (a : Nat) (bs : List Byte) : (s.writeBytes a bs).resetAsserted =
    s.resetAsserted := rfl
@[simp] theorem writeBytes_pending (a : Nat) (bs : List Byte) : (s.writeBytes a bs).pending = s.pending := rfl
@[simp] theorem writeBytes_response (a : Nat) (bs : List Byte) : (s.writeBytes a bs).response = s.response := rfl
@[simp] theorem writeBytes_latencyLeft (a : Nat) (bs : List Byte) : (s.writeBytes a bs).latencyLeft =
    s.latencyLeft := rfl
@[simp] theorem writeBytes_epoch (a : Nat) (bs : List Byte) : (s.writeBytes a bs).epoch = s.epoch := rfl
@[simp] theorem writeBytes_draws (a : Nat) (bs : List Byte) : (s.writeBytes a bs).draws = s.draws := rfl

@[simp] theorem consume_ie (rest : List HostEvent) : (consume rest s).ie = s.ie := rfl
@[simp] theorem consume_lcmd (rest : List HostEvent) : (consume rest s).lcmd = s.lcmd := rfl
@[simp] theorem consume_busy (rest : List HostEvent) : (consume rest s).busy = s.busy := rfl
@[simp] theorem consume_done (rest : List HostEvent) : (consume rest s).done = s.done := rfl
@[simp] theorem consume_ovr (rest : List HostEvent) : (consume rest s).ovr = s.ovr := rfl
@[simp] theorem consume_errcode (rest : List HostEvent) : (consume rest s).errcode = s.errcode := rfl
@[simp] theorem consume_outCount (rest : List HostEvent) : (consume rest s).outCount = s.outCount := rfl
@[simp] theorem consume_inCount (rest : List HostEvent) : (consume rest s).inCount = s.inCount := rfl
@[simp] theorem consume_mem (rest : List HostEvent) : (consume rest s).mem = s.mem := rfl
@[simp] theorem consume_sr (rest : List HostEvent) : (consume rest s).sr = s.sr := rfl
@[simp] theorem consume_pidx (rest : List HostEvent) : (consume rest s).pidx = s.pidx := rfl
@[simp] theorem consume_resetAsserted (rest : List HostEvent) : (consume rest s).resetAsserted =
    s.resetAsserted := rfl
@[simp] theorem consume_pending (rest : List HostEvent) : (consume rest s).pending = rest := rfl
@[simp] theorem consume_response (rest : List HostEvent) : (consume rest s).response = s.response := rfl
@[simp] theorem consume_latencyLeft (rest : List HostEvent) : (consume rest s).latencyLeft = s.latencyLeft - 1 := rfl
@[simp] theorem consume_epoch (rest : List HostEvent) : (consume rest s).epoch = s.epoch := rfl
@[simp] theorem consume_draws (rest : List HostEvent) : (consume rest s).draws = s.draws := rfl

@[simp] theorem encodeComplete_ie (p : Pattern) (len : BitVec 8) (fb : BitVec 3) : (encodeComplete p len fb s).ie =
    s.ie := rfl
@[simp] theorem encodeComplete_lcmd (p : Pattern) (len : BitVec 8) (fb : BitVec 3) : (encodeComplete p len fb s).lcmd =
    s.lcmd := rfl
@[simp] theorem encodeComplete_busy (p : Pattern) (len : BitVec 8) (fb : BitVec 3) : (encodeComplete p len fb s).busy =
    s.busy := rfl
@[simp] theorem encodeComplete_done (p : Pattern) (len : BitVec 8) (fb : BitVec 3) : (encodeComplete p len fb s).done =
    s.done := rfl
@[simp] theorem encodeComplete_ovr (p : Pattern) (len : BitVec 8) (fb : BitVec 3) : (encodeComplete p len fb s).ovr =
    s.ovr := rfl
@[simp] theorem encodeComplete_errcode (p : Pattern) (len : BitVec 8) (fb : BitVec 3) : (encodeComplete p len fb s).errcode =
    s.errcode := rfl
@[simp] theorem encodeComplete_outCount (p : Pattern) (len : BitVec 8) (fb : BitVec 3) : (encodeComplete p len fb s).outCount =
    BitVec.ofNat 10 (puncture (convEncode (inputBits s len fb)) (patternEntries p)).length := rfl
@[simp] theorem encodeComplete_inCount (p : Pattern) (len : BitVec 8) (fb : BitVec 3) : (encodeComplete p len fb s).inCount =
    BitVec.ofNat 10 (inputCount len fb) := rfl
@[simp] theorem encodeComplete_mem (p : Pattern) (len : BitVec 8) (fb : BitVec 3) : (encodeComplete p len fb s).mem =
    s.mem.write obufBase (packBits (puncture (convEncode (inputBits s len fb)) (patternEntries p))) := rfl
@[simp] theorem encodeComplete_sr (p : Pattern) (len : BitVec 8) (fb : BitVec 3) : (encodeComplete p len fb s).sr =
    srAfter (inputBits s len fb) := rfl
@[simp] theorem encodeComplete_pidx (p : Pattern) (len : BitVec 8) (fb : BitVec 3) : (encodeComplete p len fb s).pidx =
    0 := rfl
@[simp] theorem encodeComplete_resetAsserted (p : Pattern) (len : BitVec 8) (fb : BitVec 3) : (encodeComplete p len fb s).resetAsserted =
    s.resetAsserted := rfl
@[simp] theorem encodeComplete_pending (p : Pattern) (len : BitVec 8) (fb : BitVec 3) : (encodeComplete p len fb s).pending =
    s.pending := rfl
@[simp] theorem encodeComplete_response (p : Pattern) (len : BitVec 8) (fb : BitVec 3) : (encodeComplete p len fb s).response =
    s.response := rfl
@[simp] theorem encodeComplete_latencyLeft (p : Pattern) (len : BitVec 8) (fb : BitVec 3) : (encodeComplete p len fb s).latencyLeft =
    s.latencyLeft := rfl
@[simp] theorem encodeComplete_epoch (p : Pattern) (len : BitVec 8) (fb : BitVec 3) : (encodeComplete p len fb s).epoch =
    s.epoch := rfl
@[simp] theorem encodeComplete_draws (p : Pattern) (len : BitVec 8) (fb : BitVec 3) : (encodeComplete p len fb s).draws =
    s.draws := rfl

@[simp] theorem unpunctureComplete_ie (p : Pattern) (len : BitVec 8) (fb : BitVec 3) : (unpunctureComplete p len fb s).ie =
    s.ie := rfl
@[simp] theorem unpunctureComplete_lcmd (p : Pattern) (len : BitVec 8) (fb : BitVec 3) : (unpunctureComplete p len fb s).lcmd =
    s.lcmd := rfl
@[simp] theorem unpunctureComplete_busy (p : Pattern) (len : BitVec 8) (fb : BitVec 3) : (unpunctureComplete p len fb s).busy =
    s.busy := rfl
@[simp] theorem unpunctureComplete_done (p : Pattern) (len : BitVec 8) (fb : BitVec 3) : (unpunctureComplete p len fb s).done =
    s.done := rfl
@[simp] theorem unpunctureComplete_ovr (p : Pattern) (len : BitVec 8) (fb : BitVec 3) : (unpunctureComplete p len fb s).ovr =
    s.ovr := rfl
@[simp] theorem unpunctureComplete_errcode (p : Pattern) (len : BitVec 8) (fb : BitVec 3) : (unpunctureComplete p len fb s).errcode =
    s.errcode := rfl
@[simp] theorem unpunctureComplete_outCount (p : Pattern) (len : BitVec 8) (fb : BitVec 3) : (unpunctureComplete p len fb s).outCount =
    BitVec.ofNat 10 (codeLength len fb) := rfl
@[simp] theorem unpunctureComplete_inCount (p : Pattern) (len : BitVec 8) (fb : BitVec 3) : (unpunctureComplete p len fb s).inCount =
    BitVec.ofNat 10 (kept (codeLength len fb) (patternEntries p)) := rfl
@[simp] theorem unpunctureComplete_mem (p : Pattern) (len : BitVec 8) (fb : BitVec 3) : (unpunctureComplete p len fb s).mem =
    s.mem.write sobufBase (packSofts (padErasures (unpuncture (codeLength len fb) (patternEntries p) s.sibuf))) := rfl
@[simp] theorem unpunctureComplete_sr (p : Pattern) (len : BitVec 8) (fb : BitVec 3) : (unpunctureComplete p len fb s).sr =
    s.sr := rfl
@[simp] theorem unpunctureComplete_pidx (p : Pattern) (len : BitVec 8) (fb : BitVec 3) : (unpunctureComplete p len fb s).pidx =
    0 := rfl
@[simp] theorem unpunctureComplete_resetAsserted (p : Pattern) (len : BitVec 8) (fb : BitVec 3) : (unpunctureComplete p len fb s).resetAsserted =
    s.resetAsserted := rfl
@[simp] theorem unpunctureComplete_pending (p : Pattern) (len : BitVec 8) (fb : BitVec 3) : (unpunctureComplete p len fb s).pending =
    s.pending := rfl
@[simp] theorem unpunctureComplete_response (p : Pattern) (len : BitVec 8) (fb : BitVec 3) : (unpunctureComplete p len fb s).response =
    s.response := rfl
@[simp] theorem unpunctureComplete_latencyLeft (p : Pattern) (len : BitVec 8) (fb : BitVec 3) : (unpunctureComplete p len fb s).latencyLeft =
    s.latencyLeft := rfl
@[simp] theorem unpunctureComplete_epoch (p : Pattern) (len : BitVec 8) (fb : BitVec 3) : (unpunctureComplete p len fb s).epoch =
    s.epoch := rfl
@[simp] theorem unpunctureComplete_draws (p : Pattern) (len : BitVec 8) (fb : BitVec 3) : (unpunctureComplete p len fb s).draws =
    s.draws := rfl

end Sys2Proof.Machine
end

