-- ==== Sys2Proof/Laws/Memory.lean ====
section
/-! SUPPORT. Sys2Proof/Laws/Memory.lean: the memory keeps its canonical form, and what a byte reads as after a write. -/

namespace Sys2Proof.Machine

/-! ## cellsFrom -/

theorem mem_cellsFrom {a : Nat} {bs : List Byte} {c : Host.Cell} (h : c ∈ cellsFrom a bs) :
    a ≤ c.1 ∧ c.1 < a + bs.length := by
  induction bs generalizing a with
  | nil => simp [cellsFrom] at h
  | cons b bs ih =>
    rcases List.mem_cons.1 h with rfl | h
    · simp
    · have := ih h; simp only [List.length_cons]; omega

theorem cellsFrom_wf (a : Nat) (bs : List Byte) : Memory.wf (cellsFrom a bs) := by
  induction bs generalizing a with
  | nil => exact List.Pairwise.nil
  | cons b bs ih =>
    refine List.Pairwise.cons (fun c hc => ?_) (ih (a + 1))
    have := mem_cellsFrom hc
    show a < c.1
    omega

theorem lookup_cellsFrom (a x : Nat) (bs : List Byte) :
    List.lookup x (cellsFrom a bs) = if a ≤ x then bs[x - a]? else none := by
  induction bs generalizing a with
  | nil => simp [cellsFrom]
  | cons b bs ih =>
    rw [cellsFrom, List.lookup_cons, ih]
    by_cases hx : x = a
    · simp [hx]
    · have hb : (x == a) = false := by simpa using hx
      rw [hb]
      by_cases hle : a ≤ x
      · have h1 : a + 1 ≤ x := by omega
        obtain ⟨d, rfl⟩ := Nat.exists_eq_add_of_le h1
        have h2 : a + 1 + d - a = d + 1 := by omega
        simp [h2, hle]
      · have h1 : ¬ a + 1 ≤ x := by omega
        simp [hle, h1]

/-! ## Filters -/

theorem lookup_filter_fst (m : Memory) (p : Nat → Bool) (x : Nat) :
    List.lookup x (m.filter (fun c => p c.1)) = if p x then List.lookup x m else none := by
  induction m with
  | nil => simp
  | cons c m ih =>
    obtain ⟨k, v⟩ := c
    by_cases hk : p k = true
    · rw [List.filter_cons_of_pos (by simpa using hk), List.lookup_cons, List.lookup_cons, ih]
      by_cases hx : x = k
      · subst hx; simp [hk]
      · have hb : (x == k) = false := by simpa using hx
        simp [hb]
    · rw [List.filter_cons_of_neg (by simpa using hk), List.lookup_cons, ih]
      by_cases hx : x = k
      · subst hx; simp [hk]
      · have hb : (x == k) = false := by simpa using hx
        simp [hb]

/-! ## write -/

/-- Every memory operation keeps the canonical form: there is one, the write. -/
theorem write_wf {m : Memory} (h : m.wf) (a : Nat) (bs : List Byte) : (m.write a bs).wf := by
  refine List.pairwise_append.2 ⟨h.filter _, List.pairwise_append.2 ⟨cellsFrom_wf a bs, h.filter _, ?_⟩, ?_⟩
  · intro c hc d hd
    have h1 := mem_cellsFrom hc
    have h2 : a + bs.length ≤ d.1 := by simpa using (List.mem_filter.1 hd).2
    omega
  · intro c hc d hd
    have h1 : c.1 < a := by simpa using (List.mem_filter.1 hc).2
    rcases List.mem_append.1 hd with hd | hd
    · have := mem_cellsFrom hd; omega
    · have h2 : a + bs.length ≤ d.1 := by simpa using (List.mem_filter.1 hd).2
      omega

theorem reset_mem_wf : Memory.wf State.reset.mem := List.Pairwise.nil

/-- A cell listed after a write is one of the written bytes or was listed before. -/
theorem mem_write {m : Memory} {a : Nat} {bs : List Byte} {c : Host.Cell} (h : c ∈ m.write a bs) :
    (a ≤ c.1 ∧ c.1 < a + bs.length) ∨ c ∈ m := by
  rcases List.mem_append.1 h with h | h
  · exact .inr (List.mem_filter.1 h).1
  · rcases List.mem_append.1 h with h | h
    · exact .inl (mem_cellsFrom h)
    · exact .inr (List.mem_filter.1 h).1

/-- What an offset is listed with after a write. -/
theorem lookup_write (m : Memory) (a x : Nat) (bs : List Byte) :
    (m.write a bs).lookup x = if a ≤ x ∧ x < a + bs.length then bs[x - a]? else m.lookup x := by
  simp only [Memory.lookup, Memory.write, List.lookup_append, lookup_cellsFrom,
    lookup_filter_fst m (fun k => decide (k < a)), lookup_filter_fst m (fun k => decide (a + bs.length ≤ k))]
  by_cases h1 : x < a
  · have h2 : ¬ a ≤ x := by omega
    have h3 : ¬ a + bs.length ≤ x := by omega
    simp [h1, h2, h3]
  · have h2 : a ≤ x := by omega
    by_cases h3 : x < a + bs.length
    · have h4 : ¬ a + bs.length ≤ x := by omega
      have h5 : x - a < bs.length := by omega
      simp [h1, h2, h3, h5]
    · have h4 : a + bs.length ≤ x := by omega
      have h5 : bs.length ≤ x - a := by omega
      simp [h1, h2, h3, h4, h5]

/-! ## byteAt -/

/-- A byte's reading depends on the memory and the epoch alone. -/
theorem byteAt_congr {s t : State} (hm : t.mem = s.mem) (he : t.epoch = s.epoch) (a : Nat) :
    t.byteAt a = s.byteAt a := by
  simp [State.byteAt, unlistedByte, hm, he]

/-- Read after write, in the state whose memory is written. -/
theorem byteAt_of_write {s t : State} {a : Nat} {bs : List Byte} (hm : t.mem = s.mem.write a bs)
    (he : t.epoch = s.epoch) (x : Nat) :
    t.byteAt x = if a ≤ x ∧ x < a + bs.length then bs.getD (x - a) 0#8 else s.byteAt x := by
  simp only [State.byteAt, unlistedByte, hm, he, lookup_write]
  split
  · rename_i h
    have h5 : x - a < bs.length := by omega
    simp [List.getD_eq_getElem?_getD, h5]
  · rfl

theorem byteAt_of_write_outside {s t : State} {a : Nat} {bs : List Byte} (hm : t.mem = s.mem.write a bs)
    (he : t.epoch = s.epoch) {x : Nat} (hx : ¬(a ≤ x ∧ x < a + bs.length)) : t.byteAt x = s.byteAt x := by
  rw [byteAt_of_write hm he, if_neg hx]

/-! ## The packings -/

@[simp] theorem packBits_length (y : List Bool) : (packBits y).length = obufSize := by
  simp [packBits]

theorem packBits_getD (y : List Bool) {b : Nat} (h : b < obufSize) : (packBits y).getD b 0#8 = packByte y b := by
  simp [packBits, List.getD_eq_getElem?_getD, h]

theorem packByte_getLsbD (y : List Bool) (b : Nat) {r : Nat} (h : r < 8) :
    (packByte y b).getLsbD (7 - r) = y.getD (8 * b + r) false := by
  have h8 : r = 0 ∨ r = 1 ∨ r = 2 ∨ r = 3 ∨ r = 4 ∨ r = 5 ∨ r = 6 ∨ r = 7 := by omega
  have hm : ∀ j, j < 8 → (packByte y b).getLsbD (7 - j) = (packByte y b).getMsbD j := by
    intro j hj
    rw [BitVec.getMsbD_eq_getLsbD]
    simp [hj]
  rw [hm r h, packByte, BitVec.getMsbD_ofBoolListBE]
  rcases h8 with rfl | rfl | rfl | rfl | rfl | rfl | rfl | rfl <;> rfl

@[simp] theorem packSofts_length (z : List SoftBit) : (packSofts z).length = 2 * z.length := by
  induction z with
  | nil => rfl
  | cons v z ih => simp [packSofts, softBytes] at ih ⊢; omega

theorem packSofts_getD (z : List SoftBit) (k : Nat) :
    (packSofts z).getD (2 * k) 0#8 = (z.getD k 0#16).extractLsb' 0 8 ∧
      (packSofts z).getD (2 * k + 1) 0#8 = (z.getD k 0#16).extractLsb' 8 8 := by
  induction z generalizing k with
  | nil => simp [packSofts]
  | cons v z ih =>
    cases k with
    | zero => simp [packSofts, softBytes]
    | succ k =>
      have h1 : 2 * (k + 1) = 2 * k + 1 + 1 := by omega
      have h2 : packSofts (v :: z) = v.extractLsb' 0 8 :: v.extractLsb' 8 8 :: packSofts z := rfl
      rw [h1, h2]
      exact ih k

@[simp] theorem wordBytes_length (v : Word) : (wordBytes v).length = 4 := rfl

@[simp] theorem drawBytes_length (d n : Nat) : (drawBytes d n).length = n := by simp [drawBytes]

/-- The two bytes of a SoftBit put together. -/
theorem soft_of_bytes (v : SoftBit) : v.extractLsb' 8 8 ++ v.extractLsb' 0 8 = v := by
  apply BitVec.eq_of_getLsbD_eq
  intro i hi
  rw [BitVec.getLsbD_append]
  by_cases h : i < 8
  · simp [h]
  · have h1 : i - 8 < 8 := by omega
    simp [h, h1, show 8 + (i - 8) = i by omega]

end Sys2Proof.Machine
end

