-- ==== Sys2Proof/Laws/Coding.lean ====
section
/-! SUPPORT. Sys2Proof/Laws/Coding.lean: lengths and index forms of the sequence functions of Machine/Coding.lean and
Machine/Operands.lean. -/

namespace Sys2Proof.Machine

/-! ## The code -/

theorem slide_length (t : Config.Taps) (a : List Bool) : (slide t a).length = 2 * (a.length - 4) := by
  induction a with
  | nil => rfl
  | cons b rest ih =>
    rw [slide]
    split
    · simp only [List.length_cons, ih]; omega
    · simp only [List.length_nil, List.length_cons]; omega

@[simp] theorem extended_length (u : List Bool) : (extended u).length = u.length + 8 := by
  simp [extended]

/-- `T = 2 (n + 4)` (40_encode.md R56). -/
@[simp] theorem convEncode_length (u : List Bool) : (convEncode u).length = 2 * (u.length + 4) := by
  simp [convEncode, convEncodeWith, slide_length]

/-- The code bits of step `i` are the generators on the window that starts at `i`. -/
theorem slide_getElem? (t : Config.Taps) (a : List Bool) (i : Nat) (h : i + 5 ≤ a.length) :
    (slide t a)[2 * i]? = some (generator t.g1 ((a.drop i).take 5)) ∧
      (slide t a)[2 * i + 1]? = some (generator t.g2 ((a.drop i).take 5)) := by
  induction a generalizing i with
  | nil => simp at h
  | cons b rest ih =>
    have hr : 4 ≤ rest.length := by simp only [List.length_cons] at h; omega
    rw [slide, if_pos hr]
    cases i with
    | zero => simp
    | succ i =>
      have h2 : 2 * (i + 1) = 2 * i + 1 + 1 := by omega
      rw [h2]
      exact ih i (by simp only [List.length_cons] at h; omega)

theorem window_getD (a : List Bool) (i k : Nat) (h : k < 5) :
    ((a.drop i).take 5).getD k false = a.getD (i + k) false := by
  simp [List.getD_eq_getElem?_getD, h, List.getElem?_drop]

/-- G1 and G2 of R55 on the window at `i`. -/
theorem generator_window (a : List Bool) (i : Nat) :
    generator windowTaps.g1 ((a.drop i).take 5) =
        (a.getD (i + 4) false ^^ a.getD (i + 1) false ^^ a.getD i false) ∧
      generator windowTaps.g2 ((a.drop i).take 5) =
        (a.getD (i + 4) false ^^ a.getD (i + 3) false ^^ a.getD (i + 2) false ^^ a.getD i false) := by
  have h := window_getD a i
  constructor <;>
    simp only [windowTaps, generator, List.foldl_cons, List.foldl_nil, h 0 (by omega), h 1 (by omega),
      h 2 (by omega), h 3 (by omega), h 4 (by omega), Bool.false_xor, Nat.add_zero]

/-- Every code bit by index (R55, R56). -/
theorem convEncode_getD (u : List Bool) (i : Nat) (h : i < 2 * (u.length + 4)) :
    (convEncode u).getD i false =
      if i % 2 = 0 then
        (extended u).getD (i / 2 + 4) false ^^ (extended u).getD (i / 2 + 1) false ^^
          (extended u).getD (i / 2) false
      else
        (extended u).getD (i / 2 + 4) false ^^ (extended u).getD (i / 2 + 3) false ^^
          (extended u).getD (i / 2 + 2) false ^^ (extended u).getD (i / 2) false := by
  have hlen : i / 2 + 5 ≤ (extended u).length := by simp; omega
  have hs := slide_getElem? windowTaps (extended u) (i / 2) hlen
  have hg := generator_window (extended u) (i / 2)
  simp only [convEncode, convEncodeWith, List.getD_eq_getElem?_getD] at *
  by_cases he : i % 2 = 0
  · have hi : 2 * (i / 2) = i := by omega
    rw [hi] at hs
    simp [he, hs.1, hg.1]
  · have hi : 2 * (i / 2) + 1 = i := by omega
    rw [hi] at hs
    simp [he, hs.2, hg.2]

theorem extended_getD (u : List Bool) (j : Nat) :
    (extended u).getD j false =
      if j < 4 then false else if j < u.length + 4 then u.getD (j - 4) false else false := by
  simp only [extended, List.getD_eq_getElem?_getD]
  by_cases h1 : j < 4
  · rw [List.append_assoc, List.getElem?_append_left (by simpa using h1), List.getElem?_replicate, if_pos h1,
      if_pos h1]
    rfl
  · by_cases h2 : j < u.length + 4
    · rw [List.append_assoc, List.getElem?_append_right (by simp; omega),
        List.getElem?_append_left (by simp; omega)]
      simp [h1, h2]
    · rw [List.getElem?_append_right (by simp; omega)]
      simp only [h1, h2, if_false]
      by_cases h3 : j - (List.replicate 4 false ++ u).length < 4
      · rw [List.getElem?_replicate, if_pos h3]; rfl
      · rw [List.getElem?_replicate, if_neg h3]; rfl

/-- The register holds 0000 after the tail (10_state.md R18). -/
@[simp] theorem srAfter_eq_zero (u : List Bool) : srAfter u = 0#4 := by
  rw [srAfter, List.foldl_append]
  generalize u.foldl srNext 0#4 = r
  revert r
  decide

/-! ## Input bits -/

theorem flatMap_bits_length (s : State) (len : BitVec 8) (fb : BitVec 3) (m : Nat) (h : m + 1 ≤ len.toNat) :
    ((List.range m).flatMap (fun j => bitsMsbFirst (s.ibuf j) (bitsOfByte len fb j))).length = 8 * m := by
  induction m with
  | zero => rfl
  | succ m ih =>
    rw [List.range_succ, List.flatMap_append, List.length_append, ih (by omega)]
    have hm : m < len.toNat - 1 := by omega
    simp [bitsMsbFirst, bitsOfByte, hm]
    omega

/-- `|u| = n` (40_encode.md R52). -/
theorem inputBits_length (s : State) (len : BitVec 8) (fb : BitVec 3) (h : 1 ≤ len.toNat) :
    (inputBits s len fb).length = inputCount len fb := by
  obtain ⟨m, hm⟩ := Nat.exists_eq_add_of_le' h
  have hl : (List.range len.toNat) = List.range m ++ [m] := by rw [hm, List.range_succ]
  rw [inputBits, hl, List.flatMap_append, List.length_append, flatMap_bits_length s len fb m (by omega)]
  have h2 : ¬ m < len.toNat - 1 := by omega
  simp [bitsMsbFirst, bitsOfByte, h2, inputCount]
  omega

theorem flatMap_bits_getElem? (s : State) (len : BitVec 8) (fb : BitVec 3) (m j : Nat) (h : m + 1 ≤ len.toNat)
    (hj : j < 8 * m) :
    ((List.range m).flatMap (fun j => bitsMsbFirst (s.ibuf j) (bitsOfByte len fb j)))[j]? = some (refInput s j) := by
  induction m with
  | zero => omega
  | succ m ih =>
    rw [List.range_succ, List.flatMap_append]
    have hlen := flatMap_bits_length s len fb m (by omega)
    by_cases hlt : j < 8 * m
    · rw [List.getElem?_append_left (by omega)]
      exact ih (by omega) hlt
    · rw [List.getElem?_append_right (by omega), hlen]
      have hm : m < len.toNat - 1 := by omega
      have hq : j / 8 = m := by omega
      have hr : j - 8 * m = j % 8 := by omega
      have hr8 : j % 8 < 8 := Nat.mod_lt _ (by omega)
      simp [bitsMsbFirst, bitsOfByte, hm, hr, refInput, hq, List.getElem?_range hr8]

/-- The input bit stream by index (R53): bit `7 - (j mod 8)` of byte `floor(j / 8)`. -/
theorem inputBits_getD (s : State) (len : BitVec 8) (fb : BitVec 3) (h : 1 ≤ len.toNat) (j : Nat)
    (hj : j < inputCount len fb) : (inputBits s len fb).getD j false = refInput s j := by
  obtain ⟨m, hm⟩ := Nat.exists_eq_add_of_le' h
  have hl : (List.range len.toNat) = List.range m ++ [m] := by rw [hm, List.range_succ]
  have hlen := flatMap_bits_length s len fb m (by omega)
  rw [inputBits, hl, List.flatMap_append, List.getD_eq_getElem?_getD]
  by_cases hlt : j < 8 * m
  · rw [List.getElem?_append_left (by omega), flatMap_bits_getElem? s len fb m j (by omega) hlt]
    rfl
  · rw [List.getElem?_append_right (by omega), hlen]
    have h2 : ¬ m < len.toNat - 1 := by omega
    simp only [inputCount] at hj
    have hfb := fb.isLt
    have hq : j / 8 = m := by omega
    have hr : j - 8 * m = j % 8 := by omega
    have hr8 : j % 8 < fb.toNat + 1 := by omega
    simp [bitsMsbFirst, bitsOfByte, h2, hr, refInput, hq, List.getElem?_range hr8]

/-! ## Puncturing -/

/-- The index form of the patterns (R58 to R61). -/
theorem keeps_eq_refKeeps (p : Pattern) (i : Nat) : keeps (patternEntries p) i = refKeeps p i := by
  cases p with
  | lsf =>
    have h : i % 61 < 61 := Nat.mod_lt _ (by omega)
    simp [keeps, patternEntries, refKeeps, List.getD_eq_getElem?_getD, List.getElem?_range h]
  | pkt =>
    have h : i % 8 < 8 := Nat.mod_lt _ (by omega)
    simp only [keeps, patternEntries, refKeeps, List.length_cons, List.length_nil, Nat.zero_add, Nat.reduceAdd]
    generalize i % 8 = r at h
    interval_cases r <;> rfl
  | str =>
    have h : i % 12 < 12 := Nat.mod_lt _ (by omega)
    simp only [keeps, patternEntries, refKeeps, List.length_cons, List.length_nil, Nat.zero_add, Nat.reduceAdd]
    generalize i % 12 = r at h
    interval_cases r <;> rfl
  | raw => simp [keeps, patternEntries, refKeeps, Nat.mod_one]

theorem refRank_le (p : Pattern) (i : Nat) : refRank p i ≤ i := by
  induction i with
  | zero => simp [refRank]
  | succ i ih => rw [refRank]; split <;> omega

theorem refRank_mono (p : Pattern) {i j : Nat} (h : i ≤ j) : refRank p i ≤ refRank p j := by
  induction h with
  | refl => exact Nat.le_refl _
  | step _ ih => rw [refRank]; omega

theorem refRank_lt_of_kept (p : Pattern) {i j : Nat} (h : i < j) (hk : refKeeps p i = true) :
    refRank p i < refRank p j := by
  have h1 : refRank p (i + 1) = refRank p i + 1 := by simp [refRank, hk]
  have h2 := refRank_mono p (show i + 1 ≤ j from h)
  omega

/-- The kept positions before `T` number `Kept(T, P)` (R63). -/
theorem refRank_eq_refKept (p : Pattern) (T : Nat) : refRank p T = refKept p T := by
  induction T with
  | zero => cases p <;> rfl
  | succ T ih =>
    rw [refRank, ih]
    cases p with
    | lsf =>
      simp only [refKept, refKeeps, bne_iff_ne, ne_eq]
      split <;> omega
    | pkt =>
      simp only [refKept, refKeeps, bne_iff_ne, ne_eq]
      split <;> omega
    | str =>
      simp only [refKept, refKeeps, bne_iff_ne, ne_eq]
      split <;> omega
    | raw => simp [refKept, refKeeps]

theorem punctureFrom_length (p : Pattern) (i : Nat) (c : List Bool) :
    (punctureFrom (patternEntries p) i c).length + refRank p i = refRank p (i + c.length) := by
  induction c generalizing i with
  | nil => simp [punctureFrom]
  | cons b c ih =>
    have h := ih (i + 1)
    have hl : i + (b :: c).length = i + 1 + c.length := by simp only [List.length_cons]; omega
    rw [punctureFrom, keeps_eq_refKeeps, hl]
    rw [refRank] at h
    split
    · rename_i hk; rw [if_pos hk] at h; simp only [List.length_cons]; omega
    · rename_i hk; rw [if_neg hk] at h; omega

/-- `|y| = Kept(T, P)` (R63). -/
theorem puncture_length (p : Pattern) (c : List Bool) :
    (puncture c (patternEntries p)).length = refKept p c.length := by
  have h := punctureFrom_length p 0 c
  rw [Nat.zero_add, refRank_eq_refKept p c.length] at h
  exact h

theorem punctureFrom_getD (p : Pattern) (i k : Nat) (c : List Bool) (hk : k < c.length)
    (hkeep : refKeeps p (i + k) = true) :
    (punctureFrom (patternEntries p) i c).getD (refRank p (i + k) - refRank p i) false = c.getD k false := by
  induction c generalizing i k with
  | nil => simp at hk
  | cons b c ih =>
    rw [punctureFrom, keeps_eq_refKeeps]
    cases k with
    | zero =>
      rw [Nat.add_zero] at hkeep ⊢
      rw [if_pos hkeep]
      simp
    | succ k =>
      have hadd : i + (k + 1) = i + 1 + k := by omega
      rw [hadd] at hkeep ⊢
      have h := ih (i + 1) k (by simpa using hk) hkeep
      have hm := refRank_mono p (show i + 1 ≤ i + 1 + k by omega)
      have hr : refRank p (i + 1) = refRank p i + if refKeeps p i = true then 1 else 0 := rfl
      split
      · rename_i hi
        rw [if_pos hi] at hr
        have : refRank p (i + 1 + k) - refRank p i = refRank p (i + 1 + k) - refRank p (i + 1) + 1 := by omega
        rw [this, List.getD_cons_succ, h, List.getD_cons_succ]
      · rename_i hi
        rw [if_neg hi] at hr
        have : refRank p (i + 1 + k) - refRank p i = refRank p (i + 1 + k) - refRank p (i + 1) := by omega
        rw [this, h, List.getD_cons_succ]

/-- A kept code bit stands at the number of kept positions before it (R62). -/
theorem puncture_getD (p : Pattern) (c : List Bool) (i : Nat) (hi : i < c.length) (hk : refKeeps p i = true) :
    (puncture c (patternEntries p)).getD (refRank p i) false = c.getD i false := by
  have h := punctureFrom_getD p 0 i c hi (by simpa using hk)
  simpa [puncture, refRank] using h

/-! ## Unpuncturing -/

@[simp] theorem unpunctureFrom_length (P : List Bool) (src : Nat → SoftBit) (n i k : Nat) :
    (unpunctureFrom P src n i k).length = n := by
  induction n generalizing i k with
  | zero => rfl
  | succ n ih => rw [unpunctureFrom]; split <;> simp [ih]

theorem unpunctureFrom_getD (p : Pattern) (src : Nat → SoftBit) (n i j : Nat) (hj : j < n) :
    (unpunctureFrom (patternEntries p) src n i (refRank p i)).getD j 0#16 =
      if refKeeps p (i + j) then src (refRank p (i + j)) else erasure := by
  induction n generalizing i j with
  | zero => omega
  | succ n ih =>
    rw [unpunctureFrom, keeps_eq_refKeeps]
    have hr : refRank p (i + 1) = refRank p i + if refKeeps p i = true then 1 else 0 := rfl
    cases j with
    | zero =>
      split
      · rename_i hi; exact (if_pos hi).symm
      · rename_i hi; exact (if_neg hi).symm
    | succ j =>
      have hadd : i + (j + 1) = i + 1 + j := by omega
      have h := ih (i + 1) j (by omega)
      rw [hadd, ← h]
      split
      · rename_i hi; rw [if_pos hi] at hr; rw [List.getD_cons_succ, hr]
      · rename_i hi; rw [if_neg hi] at hr; rw [List.getD_cons_succ, show refRank p (i + 1) = refRank p i from hr]

@[simp] theorem unpuncture_length (T : Nat) (P : List Bool) (src : Nat → SoftBit) :
    (unpuncture T P src).length = T := unpunctureFrom_length P src T 0 0

/-- The unpunctured stream by index (41_unpuncture.md R73). -/
theorem unpuncture_getD (p : Pattern) (src : Nat → SoftBit) (T i : Nat) (hi : i < T) :
    (unpuncture T (patternEntries p) src).getD i 0#16 =
      if refKeeps p i then src (refRank p i) else erasure := by
  have h := unpunctureFrom_getD p src T 0 i hi
  simpa [unpuncture, refRank] using h

theorem padErasures_getD (z : List SoftBit) (i : Nat) (hi : i < softEntries) :
    (padErasures z).getD i 0#16 = if i < z.length then z.getD i 0#16 else erasure := by
  simp only [padErasures, List.getD_eq_getElem?_getD]
  split
  · rename_i h; rw [List.getElem?_append_left h]
  · rename_i h
    rw [List.getElem?_append_right (by omega), List.getElem?_replicate, if_pos (by omega)]
    rfl

theorem padErasures_length (z : List SoftBit) (h : z.length ≤ softEntries) :
    (padErasures z).length = softEntries := by
  simp [padErasures]; omega

/-! ## Operand bounds -/

theorem lenLegal_iff (len : BitVec 8) : lenLegal len = true ↔ 1 ≤ len.toNat ∧ len.toNat ≤ 32 := by
  simp [lenLegal]

/-- The code word fits the buffers: `T ≤ 520` (00_scope.md R3). -/
theorem codeLength_le (len : BitVec 8) (fb : BitVec 3) (h : len.toNat ≤ 32) : codeLength len fb ≤ 520 := by
  have := fb.isLt
  simp only [codeLength, inputCount]
  omega

end Sys2Proof.Machine
end

