-- ==== Sys2Proof/Laws/Exec.lean ====
section
/-! SUPPORT. Sys2Proof/Laws/Exec.lean: what the two completions leave in the output buffers, and what a command can
do, said once. -/

namespace Sys2Proof.Machine

/-! ## The output buffers after a completion -/

/-- OBUF after any write of packed bits at its base (40_encode.md R67). -/
theorem obufBit_of_write {s t : State} {y : List Bool} (hm : t.mem = s.mem.write obufBase (packBits y))
    (he : t.epoch = s.epoch) {k : Nat} (hk : k < 544) : t.obufBit k = y.getD k false := by
  have h1 : obufBase ≤ obufBase + k / 8 ∧ obufBase + k / 8 < obufBase + (packBits y).length := by
    simp only [packBits_length, obufSize]; omega
  have h2 : obufBase + k / 8 - obufBase = k / 8 := by omega
  rw [State.obufBit, State.obufByte, byteAt_of_write hm he, if_pos h1, h2,
    packBits_getD y (by simp only [obufSize]; omega), packByte_getLsbD y _ (Nat.mod_lt _ (by omega)),
    show 8 * (k / 8) + k % 8 = k by omega]

/-- SOBUF after any write of packed entries at its base (41_unpuncture.md R74). -/
theorem sobuf_of_write {s t : State} {z : List SoftBit} (hm : t.mem = s.mem.write sobufBase (packSofts z))
    (he : t.epoch = s.epoch) {k : Nat} (hk : k < z.length) : t.sobuf k = z.getD k 0#16 := by
  have hl := packSofts_length z
  have h1 : sobufBase ≤ sobufBase + 2 * k + 1 ∧ sobufBase + 2 * k + 1 < sobufBase + (packSofts z).length := by omega
  have h2 : sobufBase ≤ sobufBase + 2 * k ∧ sobufBase + 2 * k < sobufBase + (packSofts z).length := by omega
  have h3 : sobufBase + 2 * k + 1 - sobufBase = 2 * k + 1 := by omega
  have h4 : sobufBase + 2 * k - sobufBase = 2 * k := by omega
  rw [State.sobuf, State.softAt, byteAt_of_write hm he, byteAt_of_write hm he, if_pos h1, if_pos h2, h3, h4,
    (packSofts_getD z k).1, (packSofts_getD z k).2, soft_of_bytes]

/-- OBUF after an ENCODE completion (R67): the punctured code word, 0 past it. -/
theorem encode_obufBit (p : Pattern) (len : BitVec 8) (fb : BitVec 3) (s : State) {k : Nat} (hk : k < 544) :
    (completeOk (encodeComplete p len fb s)).obufBit k =
      (puncture (convEncode (inputBits s len fb)) (patternEntries p)).getD k false :=
  obufBit_of_write (s := s) (t := completeOk (encodeComplete p len fb s)) rfl rfl hk

/-- Any byte after an ENCODE completion (R67). -/
theorem encode_byteAt (p : Pattern) (len : BitVec 8) (fb : BitVec 3) (s : State) (a : Nat) :
    (completeOk (encodeComplete p len fb s)).byteAt a =
      if obufBase ≤ a ∧ a < obufBase + obufSize then
        packByte (puncture (convEncode (inputBits s len fb)) (patternEntries p)) (a - obufBase)
      else s.byteAt a := by
  rw [byteAt_of_write (s := s) (t := completeOk (encodeComplete p len fb s))
    (bs := packBits (puncture (convEncode (inputBits s len fb)) (patternEntries p))) rfl rfl, packBits_length]
  split
  · rw [packBits_getD _ (by omega)]
  · rfl

/-- SOBUF after an UNPUNCTURE completion (41_unpuncture.md R73, R74). -/
theorem unpuncture_sobuf (p : Pattern) (len : BitVec 8) (fb : BitVec 3) (s : State) (hl : len.toNat ≤ 32) {i : Nat}
    (hi : i < 520) :
    (completeOk (unpunctureComplete p len fb s)).sobuf i =
      if i < codeLength len fb ∧ refKeeps p i = true then s.sibuf (refRank p i) else erasure := by
  have hz : (unpuncture (codeLength len fb) (patternEntries p) s.sibuf).length = codeLength len fb := by simp
  have hp := padErasures_length (unpuncture (codeLength len fb) (patternEntries p) s.sibuf)
    (by rw [hz]; exact codeLength_le len fb hl)
  rw [sobuf_of_write (s := s) (t := completeOk (unpunctureComplete p len fb s))
    (z := padErasures (unpuncture (codeLength len fb) (patternEntries p) s.sibuf)) rfl rfl (by rw [hp]; exact hi),
    padErasures_getD _ _ hi, hz]
  by_cases h : i < codeLength len fb
  · rw [if_pos h, unpuncture_getD p _ _ _ h]
    simp [h]
  · simp [h]

/-- Any byte after an UNPUNCTURE completion (R74). -/
theorem unpuncture_byteAt (p : Pattern) (len : BitVec 8) (fb : BitVec 3) (s : State) (hl : len.toNat ≤ 32) (a : Nat) :
    (completeOk (unpunctureComplete p len fb s)).byteAt a =
      if sobufBase ≤ a ∧ a < sobufBase + softSize then
        (packSofts (padErasures (unpuncture (codeLength len fb) (patternEntries p) s.sibuf))).getD (a - sobufBase) 0#8
      else s.byteAt a := by
  rw [byteAt_of_write (s := s) (t := completeOk (unpunctureComplete p len fb s))
    (bs := packSofts (padErasures (unpuncture (codeLength len fb) (patternEntries p) s.sibuf))) rfl rfl,
    packSofts_length, padErasures_length _ (by rw [unpuncture_length]; exact codeLength_le len fb hl)]
  rfl

/-! ## What a command can do -/

theorem exec_encOf (p : Pattern) (len : BitVec 8) (fb : BitVec 3) (s : State) :
    exec (encOf p len fb) s = encodeCommand p len fb s := by
  cases p <;> rfl

theorem exec_unpOf (p : Pattern) (len : BitVec 8) (fb : BitVec 3) (s : State) :
    exec (unpOf p len fb) s = unpunctureCommand p len fb s := by
  cases p <;> rfl

/-- Every command is the ENCODE or the UNPUNCTURE command of a pattern. -/
theorem instr_cases (i : Instr) :
    (∃ p len fb, i = encOf p len fb) ∨ ∃ p len fb, i = unpOf p len fb := by
  cases i with
  | encLsf l f => exact .inl ⟨.lsf, l, f, rfl⟩
  | encPkt l f => exact .inl ⟨.pkt, l, f, rfl⟩
  | encStr l f => exact .inl ⟨.str, l, f, rfl⟩
  | encRaw l f => exact .inl ⟨.raw, l, f, rfl⟩
  | unpLsf l f => exact .inr ⟨.lsf, l, f, rfl⟩
  | unpPkt l f => exact .inr ⟨.pkt, l, f, rfl⟩
  | unpStr l f => exact .inr ⟨.str, l, f, rfl⟩
  | unpRaw l f => exact .inr ⟨.raw, l, f, rfl⟩

@[simp] theorem encOf_len (p : Pattern) (len : BitVec 8) (fb : BitVec 3) : (encOf p len fb).len = len := by
  cases p <;> rfl
@[simp] theorem unpOf_len (p : Pattern) (len : BitVec 8) (fb : BitVec 3) : (unpOf p len fb).len = len := by
  cases p <;> rfl
@[simp] theorem encOf_fb (p : Pattern) (len : BitVec 8) (fb : BitVec 3) : (encOf p len fb).fb = fb := by
  cases p <;> rfl
@[simp] theorem unpOf_fb (p : Pattern) (len : BitVec 8) (fb : BitVec 3) : (unpOf p len fb).fb = fb := by
  cases p <;> rfl

/-- What any command does, by case: turned away for its LEN, an ENCODE completion, or an UNPUNCTURE completion. -/
theorem exec_cases (i : Instr) (s : State) :
    (lenLegal i.len = false ∧ exec i s = .next (cmdError .len s)) ∨
    (lenLegal i.len = true ∧ ∃ p, i = encOf p i.len i.fb ∧
      exec i s = .next (completeOk (encodeComplete p i.len i.fb s))) ∨
    (lenLegal i.len = true ∧ ∃ p, i = unpOf p i.len i.fb ∧
      exec i s = .next (completeOk (unpunctureComplete p i.len i.fb s))) := by
  obtain ⟨p, l, f, rfl⟩ | ⟨p, l, f, rfl⟩ := instr_cases i
  · rw [exec_encOf, encodeCommand, encOf_len, encOf_fb]
    by_cases h : lenLegal l = true
    · exact .inr (.inl ⟨h, p, rfl, if_pos h⟩)
    · exact .inl ⟨by simpa using h, if_neg h⟩
  · rw [exec_unpOf, unpunctureCommand, unpOf_len, unpOf_fb]
    by_cases h : lenLegal l = true
    · exact .inr (.inr ⟨h, p, rfl, if_pos h⟩)
    · exact .inl ⟨by simpa using h, if_neg h⟩

end Sys2Proof.Machine
end

