-- ==== Sys2Proof/Laws/Bus.lean ====
section
/-! SUPPORT. Sys2Proof/Laws/Bus.lean: what a bus access can reach and what it can do, said once. -/

namespace Sys2Proof.Machine

/-! ## The address map -/

/-- Every location an access reaches, with its offset (20_memory.md R22). -/
theorem accessTarget_cases {off : BitVec 13} {bytes : Nat} {l : Location} (h : accessTarget off bytes = some l) :
    bytes = 4 ∧ off.toNat % 4 = 0 ∧
    ((l = .id ∧ off = 0x0000#13) ∨ (l = .ctrl ∧ off = 0x0004#13) ∨ (l = .cmd ∧ off = 0x0008#13) ∨
     (l = .status ∧ off = 0x000C#13) ∨ (l = .outcnt ∧ off = 0x0010#13) ∨
     (∃ q, q < 8 ∧ l = .ibuf q ∧ off.toNat = ibufBase + 4 * q) ∨
     (∃ q, q < 17 ∧ l = .obuf q ∧ off.toNat = obufBase + 4 * q) ∨
     (∃ q, q < 260 ∧ l = .sibuf q ∧ off.toNat = sibufBase + 4 * q) ∨
     (∃ q, q < 260 ∧ l = .sobuf q ∧ off.toNat = sobufBase + 4 * q)) := by
  have key : ∀ n : Nat, n < 2 ^ 13 → off.toNat = n → off = BitVec.ofNat 13 n := by
    rintro n - rfl; simp
  rw [accessTarget] at h
  split at h
  · rename_i ha
    obtain ⟨hb, hal⟩ := ha
    refine ⟨hb, hal, ?_⟩
    rw [locate] at h
    split at h
    · rename_i ho; cases h; exact .inl ⟨rfl, key _ (by omega) ho⟩
    split at h
    · rename_i ho; cases h; exact .inr (.inl ⟨rfl, key _ (by omega) ho⟩)
    split at h
    · rename_i ho; cases h; exact .inr (.inr (.inl ⟨rfl, key _ (by omega) ho⟩))
    split at h
    · rename_i ho; cases h; exact .inr (.inr (.inr (.inl ⟨rfl, key _ (by omega) ho⟩)))
    split at h
    · rename_i ho; cases h; exact .inr (.inr (.inr (.inr (.inl ⟨rfl, key _ (by omega) ho⟩))))
    split at h
    · rename_i ho; cases h
      simp only [ibufBase, ibufSize] at ho ⊢
      exact .inr (.inr (.inr (.inr (.inr (.inl ⟨_, by omega, rfl, by omega⟩)))))
    split at h
    · rename_i ho; cases h
      simp only [obufBase, obufSize] at ho ⊢
      exact .inr (.inr (.inr (.inr (.inr (.inr (.inl ⟨_, by omega, rfl, by omega⟩))))))
    split at h
    · rename_i ho; cases h
      simp only [sibufBase, softSize] at ho ⊢
      exact .inr (.inr (.inr (.inr (.inr (.inr (.inr (.inl ⟨_, by omega, rfl, by omega⟩)))))))
    split at h
    · rename_i ho; cases h
      simp only [sobufBase, softSize] at ho ⊢
      exact .inr (.inr (.inr (.inr (.inr (.inr (.inr (.inr ⟨_, by omega, rfl, by omega⟩)))))))
    · cases h
  · cases h

/-- An access is served exactly where it is one aligned word of a mapped offset (R22 to R25). -/
theorem accessTarget_isSome (off : BitVec 13) (bytes : Nat) :
    (accessTarget off bytes).isSome = true ↔ bytes = 4 ∧ off.toNat % 4 = 0 ∧ mappedOffset off.toNat := by
  constructor
  · intro h
    obtain ⟨l, hl⟩ := Option.isSome_iff_exists.1 h
    obtain ⟨hb, hal, hc⟩ := accessTarget_cases hl
    refine ⟨hb, hal, ?_⟩
    simp only [ibufBase, obufBase, sibufBase, sobufBase] at hc
    rcases hc with ⟨-, rfl⟩ | ⟨-, rfl⟩ | ⟨-, rfl⟩ | ⟨-, rfl⟩ | ⟨-, rfl⟩ | ⟨q, _, -, _⟩ | ⟨q, _, -, _⟩ |
      ⟨q, _, -, _⟩ | ⟨q, _, -, _⟩
    iterate 5 exact .inl (by decide)
    iterate 4 (right; omega)
  · rintro ⟨rfl, hal, hm⟩
    rw [accessTarget, if_pos ⟨rfl, hal⟩, locate]
    repeat' split
    all_goals first
      | rfl
      | (exfalso
         simp only [ibufBase, ibufSize, obufBase, obufSize, sibufBase, sobufBase, softSize] at *
         omega)

theorem accessTarget_ibuf {off : BitVec 13} {q : Nat} (hq : q < 8) (h : off.toNat = 0x0040 + 4 * q) :
    accessTarget off 4 = some (.ibuf q) := by
  rw [accessTarget, if_pos ⟨rfl, by omega⟩, locate, if_neg (by omega), if_neg (by omega), if_neg (by omega),
    if_neg (by omega), if_neg (by omega), if_pos (by simp only [ibufBase, ibufSize]; omega)]
  simp only [ibufBase]
  congr 2; omega

theorem accessTarget_obuf {off : BitVec 13} {q : Nat} (hq : q < 17) (h : off.toNat = 0x0080 + 4 * q) :
    accessTarget off 4 = some (.obuf q) := by
  rw [accessTarget, if_pos ⟨rfl, by omega⟩, locate, if_neg (by omega), if_neg (by omega), if_neg (by omega),
    if_neg (by omega), if_neg (by omega), if_neg (by simp only [ibufBase, ibufSize]; omega),
    if_pos (by simp only [obufBase, obufSize]; omega)]
  simp only [obufBase]
  congr 2; omega

theorem accessTarget_sibuf {off : BitVec 13} {q : Nat} (hq : q < 260) (h : off.toNat = 0x0400 + 4 * q) :
    accessTarget off 4 = some (.sibuf q) := by
  rw [accessTarget, if_pos ⟨rfl, by omega⟩, locate, if_neg (by omega), if_neg (by omega), if_neg (by omega),
    if_neg (by omega), if_neg (by omega), if_neg (by simp only [ibufBase, ibufSize]; omega),
    if_neg (by simp only [obufBase, obufSize]; omega), if_pos (by simp only [sibufBase, softSize]; omega)]
  simp only [sibufBase]
  congr 2; omega

theorem accessTarget_sobuf {off : BitVec 13} {q : Nat} (hq : q < 260) (h : off.toNat = 0x0C00 + 4 * q) :
    accessTarget off 4 = some (.sobuf q) := by
  rw [accessTarget, if_pos ⟨rfl, by omega⟩, locate, if_neg (by omega), if_neg (by omega), if_neg (by omega),
    if_neg (by omega), if_neg (by omega), if_neg (by simp only [ibufBase, ibufSize]; omega),
    if_neg (by simp only [obufBase, obufSize]; omega), if_neg (by simp only [sibufBase, softSize]; omega),
    if_pos (by simp only [sobufBase, softSize]; omega)]
  simp only [sobufBase]
  congr 2; omega

/-! ## Reads -/

/-- A read changes the response and the count of draws, and nothing else (R25, R26). -/
theorem hostRead_frame (off : BitVec 13) (bytes : Nat) (s : State) :
    ∃ r n, hostRead off bytes s = { s with response := r, draws := n } := by
  rw [hostRead]
  split
  · exact ⟨_, _, rfl⟩
  · split
    · exact ⟨_, _, rfl⟩
    · exact ⟨_, s.draws, rfl⟩

/-! ## Writes -/

/-- What a soft reset leaves of memory: all of it, or all but one output buffer. -/
theorem softReset_cases (s : State) :
    (s.busy = false ∧ softReset s = clearRegisters s) ∨
    (s.busy = true ∧ opField s.lcmd = 0#2 ∧ softReset s =
      clearRegisters { s with mem := s.mem.write obufBase (drawBytes s.draws obufSize), draws := s.draws + 1 }) ∨
    (s.busy = true ∧ opField s.lcmd = 1#2 ∧ softReset s =
      clearRegisters { s with mem := s.mem.write sobufBase (drawBytes s.draws softSize), draws := s.draws + 1 }) ∨
    (s.busy = true ∧ opField s.lcmd ≠ 0#2 ∧ opField s.lcmd ≠ 1#2 ∧ softReset s = clearRegisters s) := by
  rw [softReset, abandon]
  by_cases hb : s.busy = true
  · rw [if_pos hb]
    by_cases h0 : opField s.lcmd = 0#2
    · exact .inr (.inl ⟨hb, h0, by rw [if_pos h0]⟩)
    · by_cases h1 : opField s.lcmd = 1#2
      · exact .inr (.inr (.inl ⟨hb, h1, by rw [if_neg h0, if_pos h1]⟩))
      · exact .inr (.inr (.inr ⟨hb, h0, h1, by rw [if_neg h0, if_neg h1]⟩))
  · exact .inl ⟨by simpa using hb, by rw [if_neg hb]⟩

/-- What a write to CMD can do (30_encoding.md R48, R49). -/
theorem cmdWrite_cases (w : Word) (s : State) :
    (s.busy = true ∧ cmdWrite w s = overrun s) ∨
    (s.busy = false ∧ validate w = .ok ∧
      cmdWrite w s = accept { s with lcmd := w, done := false, errcode := .ok }) ∨
    (s.busy = false ∧ validate w ≠ .ok ∧
      cmdWrite w s = cmdError (validate w) { s with lcmd := w, done := false, errcode := .ok }) := by
  rw [cmdWrite, issue]
  by_cases hb : s.busy = true
  · exact .inl ⟨hb, if_pos hb⟩
  · rw [if_neg hb]
    by_cases hv : validate w = .ok
    · exact .inr (.inl ⟨by simpa using hb, hv, by simp [hv]⟩)
    · exact .inr (.inr ⟨by simpa using hb, hv, by simp [hv]⟩)

/-- What a bus write can do, by case. -/
theorem hostWrite_cases (off : BitVec 13) (bytes : Nat) (v : Word) (s : State) :
    (accessTarget off bytes = none ∧ hostWrite off bytes v s = busErrorWrite s) ∨
    (bytes = 4 ∧ off.toNat % 4 = 0 ∧
      ((off = 0x0004#13 ∧ hostWrite off bytes v s = { ctrlWrite v s with response := some .writeOk }) ∨
       (off = 0x0008#13 ∧ hostWrite off bytes v s = { cmdWrite v s with response := some .writeOk }) ∨
       (off = 0x000C#13 ∧ hostWrite off bytes v s = { statusWrite v s with response := some .writeOk }) ∨
       ((inIbuf off.toNat ∨ inSibuf off.toNat) ∧
         hostWrite off bytes v s = { inputWrite off.toNat v s with response := some .writeOk }) ∨
       ((off = 0x0000#13 ∨ off = 0x0010#13 ∨ inObuf off.toNat ∨ inSobuf off.toNat) ∧
         hostWrite off bytes v s = { s with response := some .writeOk }))) := by
  cases hl : accessTarget off bytes with
  | none => exact .inl ⟨rfl, by simp only [hostWrite, hl]⟩
  | some l =>
    obtain ⟨hb, hal, hc⟩ := accessTarget_cases hl
    refine .inr ⟨hb, hal, ?_⟩
    simp only [hostWrite, hl]
    rcases hc with ⟨rfl, h⟩ | ⟨rfl, h⟩ | ⟨rfl, h⟩ | ⟨rfl, h⟩ | ⟨rfl, h⟩ | ⟨q, hq, rfl, h⟩ | ⟨q, hq, rfl, h⟩ |
      ⟨q, hq, rfl, h⟩ | ⟨q, hq, rfl, h⟩
    · exact .inr (.inr (.inr (.inr ⟨.inl h, rfl⟩)))
    · exact .inl ⟨h, rfl⟩
    · exact .inr (.inl ⟨h, rfl⟩)
    · exact .inr (.inr (.inl ⟨h, rfl⟩))
    · exact .inr (.inr (.inr (.inr ⟨.inr (.inl h), rfl⟩)))
    · refine .inr (.inr (.inr (.inl ⟨.inl ?_, ?_⟩)))
      · simp only [ibufBase] at h; omega
      · rw [h]; rfl
    · refine .inr (.inr (.inr (.inr ⟨.inr (.inr (.inl ?_)), rfl⟩)))
      simp only [obufBase] at h; omega
    · refine .inr (.inr (.inr (.inl ⟨.inr ?_, ?_⟩)))
      · simp only [sibufBase] at h; omega
      · rw [h]; rfl
    · refine .inr (.inr (.inr (.inr ⟨.inr (.inr (.inr ?_)), rfl⟩)))
      simp only [sobufBase] at h; omega

end Sys2Proof.Machine
end

