-- ==== Sys2Proof/Laws/Agents.lean ====
section
/-! SUPPORT. Sys2Proof/Laws/Agents.lean: what one step can do, said once. -/

namespace Sys2Proof.Machine

/-- The engine's step always answers a next state: the command in LCMD performed, or its error. -/
theorem performCommand_cases (s : State) :
    (∃ i, decode s.lcmd = .ok i ∧ performCommand s = exec i s) ∨
    (∃ e, decode s.lcmd = .error e ∧ performCommand s = .next (cmdError e s)) := by
  cases h : decode s.lcmd with
  | ok i => exact .inl ⟨i, rfl, by rw [performCommand, h]⟩
  | error e => exact .inr ⟨e, rfl, by rw [performCommand, h]⟩

/-- The ways a step answers a next state. -/
inductive StepShape (s t : State) : Prop where
  /-- The reset input is asserted: at most the list of events and the level change. -/
  | inReset (h : s.resetAsserted = true)
      (ht : t = { s with pending := t.pending, resetAsserted := t.resetAsserted })
      (hr : t.resetAsserted = false → s.pending = .releaseReset :: t.pending)
  /-- The engine's completion step. -/
  | engine (hr : s.resetAsserted = false) (hb : s.busy = true) (h : performCommand s = .next t)
  /-- A bus write. -/
  | write (hr : s.resetAsserted = false) (off : BitVec 13) (bytes : Nat) (v : Word) (rest : List HostEvent)
      (hp : s.pending = .write off bytes v :: rest) (ht : t = hostWrite off bytes v (consume rest s))
  /-- A bus read, or one read of a POLL: only the response, the counts and the list change. -/
  | read (hr : s.resetAsserted = false)
      (ht : t = { s with pending := t.pending, response := t.response, draws := t.draws,
                         latencyLeft := t.latencyLeft })
  /-- A hardware reset. -/
  | reset (hr : s.resetAsserted = false) (rest : List HostEvent) (hp : s.pending = .assertReset :: rest)
      (ht : t = hardReset { s with pending := rest })
  /-- Nothing but the list of events changes. -/
  | quiet (hr : s.resetAsserted = false) (ht : t = { s with pending := t.pending })

theorem stepInReset_shape {s t : State} (hr : s.resetAsserted = true) (h : stepInReset s = .next t) :
    StepShape s t := by
  rw [stepInReset] at h
  split at h
  · cases h; exact .inReset hr rfl (by simp [hr])
  · cases h
  · cases h
  · cases h
  · cases h; exact .inReset hr rfl (by simp [hr])
  · cases h; exact .inReset hr rfl (by simp [hr])
  · rename_i hp; cases h; exact .inReset hr rfl (fun _ => hp)

theorem hostMove_shape {s t : State} {e : HostEvent} {rest : List HostEvent} (hr : s.resetAsserted = false)
    (hp : s.pending = e :: rest) (h : hostMove e rest s = .next t) : StepShape s t := by
  cases e with
  | write off bytes v => cases h; exact .write hr off bytes v rest hp rfl
  | read off bytes =>
    cases h
    obtain ⟨r, n, hf⟩ := hostRead_frame off bytes (consume rest s)
    rw [hf]; exact .read hr rfl
  | poll off mask value =>
    cases h
    obtain ⟨r, n, hf⟩ := hostRead_frame off 4 (consume rest s)
    simp only [pollOnce, hf]
    split <;> exact .read hr rfl
  | waitIrq =>
    simp only [hostMove, waitForIrq] at h
    split at h
    · cases h; exact .quiet hr rfl
    · split at h
      · rename_i hb; exact .engine hr hb h
      · cases h; exact .quiet hr rfl
  | assertReset => cases h; exact .reset hr rest hp rfl
  | releaseReset => cases h; exact .quiet hr rfl

/-- Everything a step that answers a next state can be. -/
theorem step_shape {s t : State} (h : step s = .next t) : StepShape s t := by
  rw [step, nextEvent] at h
  split at h
  · rename_i hr; exact stepInReset_shape hr h
  · rename_i hr
    have hr' : s.resetAsserted = false := by simpa using hr
    split at h
    · split at h
      · rename_i hb; exact .engine hr' hb h
      · cases h; exact .quiet hr' rfl
    · rename_i e rest hp
      split at h
      · rename_i hd
        have hb : s.busy = true := by
          cases e <;> simp_all [engineDue]
        exact .engine hr' hb h
      · exact hostMove_shape hr' hp h

end Sys2Proof.Machine
end

