-- ==== Sys2Proof/Laws/PerInstr.lean ====
section
/-! SUPPORT. Sys2Proof/Laws/PerInstr.lean: per-instruction families: the encoding of every command lies in its row of
30_encoding.md R44's table. -/

namespace Sys2Proof.Laws.TableRow

/-- The encoded word meets the row's match under the mask, and its LEN and FB fields are the operands. -/
def Statement (i : Instr) : Prop :=
  encode i &&& rowMask = i.rowMatch ∧ lenField (encode i) = i.len ∧ fbField (encode i) = i.fb

theorem rowMask_bits : ∀ k, k < 32 → rowMask.getLsbD k = true → k < 4 ∨ k = 7 ∨ 16 ≤ k := by decide

theorem operand_bit (l : BitVec 8) (f : BitVec 3) (m : Word) (k : Nat) (hk : k < 32) :
    ((l.zeroExtend 32 <<< 8) ||| (f.zeroExtend 32 <<< 4) ||| m).getLsbD k =
      ((decide (8 ≤ k) && l.getLsbD (k - 8)) || (decide (4 ≤ k) && f.getLsbD (k - 4)) || m.getLsbD k) := by
  have h8 : k - 8 < 32 := by omega
  have h4 : k - 4 < 32 := by omega
  simp only [BitVec.getLsbD_or, BitVec.getLsbD_shiftLeft, BitVec.truncate_eq_setWidth, BitVec.getLsbD_setWidth, hk, h8,
    h4, decide_true, Bool.true_and]
  by_cases h1 : k < 8 <;> by_cases h2 : k < 4 <;> simp [h1, h2, Nat.not_le.2, Nat.le_of_not_lt]

theorem encode_fields (i : Instr) (hm : i.rowMatch &&& rowMask = i.rowMatch) : Statement i := by
  have hz : ∀ k, k < 32 → 4 ≤ k → k ≠ 7 → k < 16 → i.rowMatch.getLsbD k = false := by
    intro k hk h1 h2 h3
    rw [← hm, BitVec.getLsbD_and]
    cases hb : rowMask.getLsbD k with
    | false => simp
    | true => have := rowMask_bits k hk hb; omega
  refine ⟨BitVec.eq_of_getLsbD_eq fun k hk => ?_, BitVec.eq_of_getLsbD_eq fun k hk => ?_,
    BitVec.eq_of_getLsbD_eq fun k hk => ?_⟩
  · rw [BitVec.getLsbD_and, encode, operand_bit _ _ _ _ hk]
    conv => rhs; rw [← hm, BitVec.getLsbD_and]
    cases hb : rowMask.getLsbD k with
    | false => simp
    | true =>
      have hr := rowMask_bits k hk hb
      have h1 : (decide (8 ≤ k) && i.len.getLsbD (k - 8)) = false := by
        by_cases h : 16 ≤ k
        · rw [BitVec.getLsbD_of_ge _ _ (by omega), Bool.and_false]
        · rw [decide_eq_false (by omega), Bool.false_and]
      have h2 : (decide (4 ≤ k) && i.fb.getLsbD (k - 4)) = false := by
        by_cases h : 7 ≤ k
        · rw [BitVec.getLsbD_of_ge _ _ (by omega), Bool.and_false]
        · rw [decide_eq_false (by omega), Bool.false_and]
      rw [h1, h2, Bool.false_or, Bool.false_or]
  · have h1 : 8 + k - 8 = k := by omega
    rw [lenField, BitVec.getLsbD_extractLsb', decide_eq_true hk, Bool.true_and, encode,
      operand_bit _ _ _ _ (by omega), h1, decide_eq_true (by omega : 8 ≤ 8 + k), Bool.true_and,
      BitVec.getLsbD_of_ge i.fb _ (by omega), hz _ (by omega) (by omega) (by omega) (by omega)]
    simp
  · have h1 : 4 + k - 4 = k := by omega
    rw [fbField, BitVec.getLsbD_extractLsb', decide_eq_true hk, Bool.true_and, encode,
      operand_bit _ _ _ _ (by omega), h1, decide_eq_true (by omega : 4 ≤ 4 + k), Bool.true_and,
      decide_eq_false (by omega : ¬ 8 ≤ 4 + k), hz _ (by omega) (by omega) (by omega) (by omega)]
    simp

theorem encLsf (len : BitVec 8) (fb : BitVec 3) : Statement (.encLsf len fb) :=
  encode_fields _ (show 0x00000000#32 &&& rowMask = 0x00000000#32 by decide)
theorem encPkt (len : BitVec 8) (fb : BitVec 3) : Statement (.encPkt len fb) :=
  encode_fields _ (show 0x00000004#32 &&& rowMask = 0x00000004#32 by decide)
theorem encStr (len : BitVec 8) (fb : BitVec 3) : Statement (.encStr len fb) :=
  encode_fields _ (show 0x00000008#32 &&& rowMask = 0x00000008#32 by decide)
theorem encRaw (len : BitVec 8) (fb : BitVec 3) : Statement (.encRaw len fb) :=
  encode_fields _ (show 0x0000000C#32 &&& rowMask = 0x0000000C#32 by decide)
theorem unpLsf (len : BitVec 8) (fb : BitVec 3) : Statement (.unpLsf len fb) :=
  encode_fields _ (show 0x00000001#32 &&& rowMask = 0x00000001#32 by decide)
theorem unpPkt (len : BitVec 8) (fb : BitVec 3) : Statement (.unpPkt len fb) :=
  encode_fields _ (show 0x00000005#32 &&& rowMask = 0x00000005#32 by decide)
theorem unpStr (len : BitVec 8) (fb : BitVec 3) : Statement (.unpStr len fb) :=
  encode_fields _ (show 0x00000009#32 &&& rowMask = 0x00000009#32 by decide)
theorem unpRaw (len : BitVec 8) (fb : BitVec 3) : Statement (.unpRaw len fb) :=
  encode_fields _ (show 0x0000000D#32 &&& rowMask = 0x0000000D#32 by decide)

end Sys2Proof.Laws.TableRow
end

