-- ==== Sys2Proof/Tests/Slice0.lean ====
section
/-! SUPPORT. Sys2Proof/Tests/Slice0.lean: the model's own tests. Expected values come from spec/: the words from
30_encoding.md R38 and R46, the results from 95_test_vectors.md (its ids are named) or by hand from 40_encode.md's
rules. Then one witness for every obligation that has hypotheses. -/

open Sys2Proof Sys2Proof.Machine

namespace Sys2Proof.Tests

/-! ## Helpers -/

/-- After reset, IBUF written from its first byte. -/
def withIbuf (bs : List Byte) : State := State.reset.writeBytes ibufBase bs

/-- After reset, SIBUF written from its first entry. -/
def withSibuf (zs : List SoftBit) : State := State.reset.writeBytes sibufBase (packSofts zs)

/-- The start state of U1 to U4 (95_test_vectors.md): SIBUF[k] = 0x1000 * (k + 1) for k in 0..9. -/
def unpStart : State :=
  withSibuf [0x1000#16, 0x2000#16, 0x3000#16, 0x4000#16, 0x5000#16, 0x6000#16, 0x7000#16, 0x8000#16, 0x9000#16,
    0xA000#16]

/-- A block busy with the word `w`, one host access left before its completion, and events to come. -/
def busyWith (w : Word) (events : List HostEvent) : State :=
  { placeCommand w State.reset with latencyLeft := 1, pending := events }

/-- An idle block with events to come. -/
def idleWith (events : List HostEvent) : State := { State.reset with pending := events }

/-- The outcome is a next state that passes the check. -/
def nextMeets (o : Host.Outcome State Fault Refusal) (check : State → Bool) : Bool :=
  match o with
  | .next t => check t
  | .fault _ => false
  | .refused _ => false

/-- The outcome is the fault of an access in reset. -/
def isAccessFault (o : Host.Outcome State Fault Refusal) : Bool :=
  match o with
  | .next _ => false
  | .fault .accessDuringReset => true
  | .refused _ => false

/-- The state of an outcome, `State.reset` where there is none. -/
def stateOf (o : Host.Outcome State Fault Refusal) : State :=
  match o with
  | .next t => t
  | .fault _ => State.reset
  | .refused _ => State.reset

/-! ## WellFormed: each check with an ill-formed term it refuses -/

theorem test_wf_refuses_len_zero : (Instr.encLsf 0#8 7#3).wellFormed = false := by decide
theorem test_wf_refuses_len_33 : (Instr.unpRaw 33#8 0#3).wellFormed = false := by decide
theorem test_wf_refuses_len_255 : (Instr.encStr 255#8 0#3).wellFormed = false := by decide
theorem test_wf_accepts_len_1 : (Instr.encRaw 1#8 0#3).wellFormed = true := by decide
theorem test_wf_accepts_len_32 : (Instr.unpPkt 32#8 7#3).wellFormed = true := by decide

/-! ## Decode: every constructor from a word written out bit by bit, as R38's pattern string
`0000000000000000 LLLLLLLL 0 FFF PP OO` -/

theorem test_decode_encLsf : decode 0b0000000000000000_00011110_0_111_00_00#32 = .ok (.encLsf 30#8 7#3) := by rfl
theorem test_decode_encPkt : decode 0b0000000000000000_00011010_0_101_01_00#32 = .ok (.encPkt 26#8 5#3) := by rfl
theorem test_decode_encStr : decode 0b0000000000000000_00010010_0_111_10_00#32 = .ok (.encStr 18#8 7#3) := by rfl
theorem test_decode_encRaw : decode 0b0000000000000000_00000001_0_000_11_00#32 = .ok (.encRaw 1#8 0#3) := by rfl
theorem test_decode_unpLsf : decode 0b0000000000000000_00011110_0_111_00_01#32 = .ok (.unpLsf 30#8 7#3) := by rfl
theorem test_decode_unpPkt : decode 0b0000000000000000_00011010_0_101_01_01#32 = .ok (.unpPkt 26#8 5#3) := by rfl
theorem test_decode_unpStr : decode 0b0000000000000000_00010010_0_111_10_01#32 = .ok (.unpStr 18#8 7#3) := by rfl
theorem test_decode_unpRaw : decode 0b0000000000000000_00100000_0_110_11_01#32 = .ok (.unpRaw 32#8 6#3) := by rfl

/-- Words that name no command: OP = 2, OP = 3, bit 7, bit 16, bit 31 (X-4 to X-8). -/
theorem test_decode_rejects_by_name :
    decode 0x00001E72#32 = .error .op ∧ decode 0x00001E73#32 = .error .op ∧ decode 0x00001EF0#32 = .error .rsvd ∧
      decode 0x00011E70#32 = .error .rsvd ∧ decode 0x80000000#32 = .error .rsvd := ⟨rfl, rfl, rfl, rfl, rfl⟩

theorem test_decodeTableWord :
    decodeTableWord 32 0x00001A55 = some (.unpPkt 26#8 5#3) ∧ decodeTableWord 32 0x00000002 = none ∧
      decodeTableWord 16 0x00010004 = none := ⟨rfl, rfl, rfl⟩

/-- The example of R45. -/
theorem test_assemble : assemble .encPkt 26 5 = some 0x00001A54#32 ∧ assemble .encPkt 33 5 = none := by decide

/-! ## Commands -/

/-- P_LSF as R58 prints it. -/
theorem test_pattern_lsf :
    (patternEntries .lsf).map (fun b => if b then '1' else '0') =
      "1101110111011101110111011101110111011101110111011101110111011".toList := by decide

/-- The other reading of D1 gives the other impulse response: G1 taps 1 1 0 0 1, G2 taps 1 0 1 1 1. -/
theorem test_delay_reading :
    convEncodeWith delayTaps [true] = [true, true, true, false, false, true, false, true, true, true] := by decide

/-- E1. -/
theorem test_encRaw_impulse :
    nextMeets (exec (.encRaw 1#8 0#3) (withIbuf [0x80#8])) (fun t =>
      t.obufByte 0 == 0xD6#8 && t.obufByte 1 == 0xC0#8 && outcntWord t == 0x0001000A#32) = true := by decide
/-- E7. -/
theorem test_encRaw_ones :
    nextMeets (exec (.encRaw 1#8 7#3) (withIbuf [0xFF#8])) (fun t =>
      t.obufByte 0 == 0xED#8 && t.obufByte 1 == 0xAA#8 && t.obufByte 2 == 0x47#8 && t.obufByte 3 == 0#8) = true := by
  decide
/-- E2. -/
theorem test_encLsf_impulse :
    nextMeets (exec (.encLsf 1#8 0#3) (withIbuf [0x80#8])) (fun t =>
      t.obufByte 0 == 0xEB#8 && t.obufByte 1 == 0#8 && outcntWord t == 0x00010008#32) = true := by decide
/-- E7's code word, its bits 2, 6, ..., 22 dropped by hand (R58, R62). -/
theorem test_encLsf_ones :
    nextMeets (exec (.encLsf 1#8 7#3) (withIbuf [0xFF#8])) (fun t =>
      t.obufByte 0 == 0xDE#8 && t.obufByte 1 == 0x44#8 && t.obufByte 2 == 0xC0#8 && t.outCount == 18#10) = true := by
  decide
/-- E3. -/
theorem test_encPkt_impulse :
    nextMeets (exec (.encPkt 1#8 0#3) (withIbuf [0x80#8])) (fun t =>
      t.obufByte 0 == 0xD7#8 && t.obufByte 1 == 0x80#8 && outcntWord t == 0x00010009#32) = true := by decide
/-- E7's code word, its bits 7, 15, 23 dropped by hand (R59, R62). -/
theorem test_encPkt_ones :
    nextMeets (exec (.encPkt 1#8 7#3) (withIbuf [0xFF#8])) (fun t =>
      t.obufByte 0 == 0xED#8 && t.obufByte 1 == 0x55#8 && t.obufByte 2 == 0x18#8 && t.outCount == 21#10) = true := by
  decide
/-- E4. -/
theorem test_encStr_impulse :
    nextMeets (exec (.encStr 1#8 0#3) (withIbuf [0x80#8])) (fun t =>
      t.obufByte 0 == 0xD6#8 && t.obufByte 1 == 0xC0#8 && outcntWord t == 0x0001000A#32) = true := by decide
/-- E7's code word, its bits 11 and 23 dropped by hand (R60, R62). -/
theorem test_encStr_ones :
    nextMeets (exec (.encStr 1#8 7#3) (withIbuf [0xFF#8])) (fun t =>
      t.obufByte 0 == 0xED#8 && t.obufByte 1 == 0xB4#8 && t.obufByte 2 == 0x8C#8 && t.outCount == 22#10) = true := by
  decide
/-- U1. -/
theorem test_unpLsf :
    nextMeets (exec (.unpLsf 1#8 0#3) unpStart) (fun t =>
      (List.range 11).map t.sobuf == [0x1000#16, 0x2000#16, 0x7FFF#16, 0x3000#16, 0x4000#16, 0x5000#16, 0x7FFF#16,
        0x6000#16, 0x7000#16, 0x8000#16, 0x7FFF#16] && outcntWord t == 0x0008000A#32) = true := by decide
/-- U2. -/
theorem test_unpPkt :
    nextMeets (exec (.unpPkt 1#8 0#3) unpStart) (fun t =>
      (List.range 11).map t.sobuf == [0x1000#16, 0x2000#16, 0x3000#16, 0x4000#16, 0x5000#16, 0x6000#16, 0x7000#16,
        0x7FFF#16, 0x8000#16, 0x9000#16, 0x7FFF#16] && outcntWord t == 0x0009000A#32) = true := by decide
/-- U3. -/
theorem test_unpStr :
    nextMeets (exec (.unpStr 1#8 0#3) unpStart) (fun t =>
      t.sobuf 0 == 0x1000#16 && t.sobuf 7 == 0x8000#16 && t.sobuf 9 == 0xA000#16 && t.sobuf 10 == 0x7FFF#16 &&
        outcntWord t == 0x000A000A#32) = true := by decide
/-- U4. -/
theorem test_unpRaw :
    nextMeets (exec (.unpRaw 1#8 0#3) unpStart) (fun t =>
      t.sobuf 0 == 0x1000#16 && t.sobuf 9 == 0xA000#16 && t.sobuf 10 == 0x7FFF#16 && t.sobuf 519 == 0x7FFF#16 &&
        outcntWord t == 0x000A000A#32) = true := by decide +kernel

/-! ## Bus, errors, interrupt, reset -/

/-- X-1 to X-10: the STATUS word after the CMD write, CMD reading back the word. -/
theorem test_command_errors :
    ([0x00000000#32, 0x00002170#32, 0x0000FF70#32, 0x00001E72#32, 0x00001E73#32, 0x00001EF0#32, 0x00011E70#32,
      0x80000000#32, 0x00010002#32, 0x00000002#32].map fun w => statusWord (hostWrite 0x0008#13 4 w State.reset)) =
    [0x00000302#32, 0x00000302#32, 0x00000302#32, 0x00000202#32, 0x00000202#32, 0x00000102#32, 0x00000102#32,
      0x00000102#32, 0x00000102#32, 0x00000202#32] := by decide
/-- X-11, X-12: accepted, BUSY = 1. -/
theorem test_accepted :
    statusWord (hostWrite 0x0008#13 4 0x0000207C#32 State.reset) = 0x00000001#32 ∧
      statusWord (hostWrite 0x0008#13 4 0x0000010C#32 State.reset) = 0x00000001#32 := by decide
/-- B-7: the lanes of an IBUF word. -/
theorem test_ibuf_lanes :
    let t := hostWrite 0x0040#13 4 0x44332211#32 State.reset
    [t.ibuf 0, t.ibuf 1, t.ibuf 2, t.ibuf 3] = [0x11#8, 0x22#8, 0x33#8, 0x44#8] ∧
      (hostRead 0x0040#13 4 t).response = some (.readOk 0x44332211#32) := by decide
/-- B-8: the two entries of a SIBUF word. -/
theorem test_sibuf_lanes :
    let t := hostWrite 0x0400#13 4 0xBBBBAAAA#32 State.reset
    t.sibuf 0 = 0xAAAA#16 ∧ t.sibuf 1 = 0xBBBB#16 := by decide
/-- B-9: STATUS = 0x00000306, all ones written. -/
theorem test_status_w1c :
    statusWord { State.reset with done := true, ovr := true, errcode := .len } = 0x00000306#32 ∧
      statusWord (hostWrite 0x000C#13 4 0xFFFFFFFF#32
        { State.reset with done := true, ovr := true, errcode := .len }) = 0x00000300#32 := by decide
/-- B-10, B-11: dropped while busy, OVR set. -/
theorem test_dropped_while_busy :
    (hostWrite 0x0008#13 4 0x0000010C#32 (busyWith 0x00001E70#32 [])).lcmd = 0x00001E70#32 ∧
      statusWord (hostWrite 0x0040#13 4 0x1#32 (busyWith 0x00001E70#32 [])) = 0x00000005#32 := by decide
/-- I-4: irq rises at the CTRL write. -/
theorem test_irq_level :
    State.irq { State.reset with done := true } = false ∧
      (hostWrite 0x0004#13 4 0x1#32 { State.reset with done := true }).irq = true := by decide
/-- I-6: a soft reset abandons the command; IBUF is kept. -/
theorem test_soft_reset_abandons :
    let t := hostWrite 0x0004#13 4 0x2#32 (placeCommand 0x00001E70#32 (withIbuf [0x5A#8]))
    statusWord t = 0#32 ∧ t.lcmd = 0#32 ∧ t.ibuf 0 = 0x5A#8 := by decide
/-- R97: an access in reset has no transition; the release is one. -/
theorem test_in_reset :
    isAccessFault (step { idleWith [.read 0x0000#13 4] with resetAsserted := true }) = true ∧
      nextMeets (step { idleWith [.releaseReset] with resetAsserted := true }) (fun t => !t.resetAsserted) = true := by
  decide
/-- A command placed after reset runs on the next step, on the row's match word (LEN = 0 is turned away) and on a legal
one. -/
theorem test_placed_command_runs :
    nextMeets (step (State.reset.withFetchWord 32 0x00000004)) (fun t => statusWord t == 0x00000302#32) = true ∧
      nextMeets (step (State.reset.withFetchWord 32 0x0000010D)) (fun t => statusWord t == 0x00000002#32) = true := by
  decide

/-! ## Witnesses: concrete states and operands that meet the hypotheses of each obligation that has some -/

theorem witness_EncodeInvertsDecode : decode 0x00001A54#32 = .ok (.encPkt 26#8 5#3) := rfl

/-- Both sides of the condition: a command word at each end of OP's legal range, and a word failing each part. -/
theorem witness_DecodingIsTotal :
    let c := fun w : Word => w.toNat / 2 ^ 7 % 2 = 0 ∧ w.toNat / 2 ^ 16 = 0 ∧ w.toNat % 4 < 2
    c 0x00000000#32 ∧ c 0x0000FF7D#32 ∧ ¬ c 0x00000002#32 ∧ ¬ c 0x00000080#32 ∧ ¬ c 0x00010000#32 ∧
      ¬ c 0xFFFFFFFF#32 ∧ State.reset.busy = false := by decide

/-- Each end of the ranges of L and FB, and just outside each. -/
theorem witness_AssemblerGivesAcceptedWords :
    (Instr.encLsf = encOf .lsf ∧ Instr.unpRaw = unpOf .raw) ∧
      (1 ≤ 1 ∧ 1 ≤ 32 ∧ 0 ≤ 7) ∧ (1 ≤ 32 ∧ 32 ≤ 32 ∧ 7 ≤ 7) ∧ ¬(1 ≤ 0 ∧ 0 ≤ 32 ∧ 7 ≤ 7) ∧
      ¬(1 ≤ 33 ∧ 33 ≤ 32 ∧ 0 ≤ 7) ∧ ¬(1 ≤ 32 ∧ 32 ≤ 32 ∧ 8 ≤ 7) := ⟨⟨rfl, rfl⟩, by decide⟩

/-- LEN at both ends; a kept position at each end of the shortest code word; a cell past the output at each end; the
four patterns. -/
theorem witness_EncodeWritesPuncturedCodeWord :
    (1 ≤ (1#8).toNat ∧ (1#8).toNat ≤ 32) ∧ (1 ≤ (32#8).toNat ∧ (32#8).toNat ≤ 32) ∧
      (∀ p ∈ [Pattern.lsf, Pattern.pkt, Pattern.str, Pattern.raw],
        refKeeps p 0 = true ∧ refKeeps p 9 = true ∧ refKept p 10 ≤ 10 ∧ 10 ≤ 543 ∧ refKept p 520 ≤ 520) := by decide

/-- LEN at both ends; SOBUF's first and last entry; a position kept and one dropped. -/
theorem witness_UnpunctureSpreadsSoftBits :
    (1 ≤ (1#8).toNat ∧ (1#8).toNat ≤ 32) ∧ (1 ≤ (32#8).toNat ∧ (32#8).toNat ≤ 32) ∧ 0 < 520 ∧ 519 < 520 ∧
      refKeeps .lsf 3 = true ∧ refKeeps .lsf 2 = false ∧ refKeeps .pkt 7 = false ∧ refKeeps .str 11 = false ∧
      refKeeps .lsf 60 = true ∧ refKeeps .lsf 61 = true ∧ refKeeps .lsf 63 = false := by decide

theorem witness_IllegalLengthIsTurnedAway :
    (Instr.encLsf 0#8 0#3).len.toNat = 0 ∧ 32 < (Instr.unpRaw 33#8 0#3).len.toNat ∧
      32 < (Instr.encStr 255#8 7#3).len.toNat := by decide

theorem witness_KeptCountClosedForm :
    10 ≤ (List.replicate 10 false).length ∧ (0#8).toNat ≤ 32 ∧ (32#8).toNat ≤ 32 := by decide

/-- The last row of the table, and the first. -/
theorem witness_ShiftRegisterFormIsTheCode :
    (0, (false, false, 0), (true, true, 8)) ∈ trellisRows ∧ (15, (false, true, 7), (true, false, 15)) ∈ trellisRows := by
  decide

/-- Two inputs that differ in their last bit only agree on all that code bit 0 depends on. -/
theorem witness_PuncturedCodeIsLinear :
    [true, false].length = [true, true].length ∧
      ∀ j, j ≤ 0 / 2 → 0 / 2 ≤ j + 4 → [true, false][j]? = [true, true][j]? := by
  refine ⟨rfl, fun j hj _ => ?_⟩
  obtain rfl : j = 0 := by omega
  rfl

/-- The inputs of E1 and E5 differ in bits that `ENC.RAW 1, 0` does not take. -/
theorem witness_UntakenBitsDoNotAffectOutput :
    (1 ≤ (1#8).toNat ∧ (1#8).toNat ≤ 32) ∧
      (∀ j, j < 8 * ((1#8).toNat - 1) + (0#3).toNat + 1 →
        refInput (withIbuf [0x80#8]) j = refInput (withIbuf [0xBF#8]) j) ∧
      refInput (withIbuf [0x80#8]) 1 = false ∧ refInput (withIbuf [0xBF#8]) 2 = true := by decide

/-- `UNP.LSF 1, 0` reads 8 entries: two states that differ in entry 8 alone. -/
theorem witness_UnreadSoftBitsDoNotAffectOutput :
    (1 ≤ (1#8).toNat ∧ (1#8).toNat ≤ 32) ∧
      refKept .lsf (2 * (8 * ((1#8).toNat - 1) + (0#3).toNat + 1 + 4)) = 8 ∧
      (∀ k, k < refKept .lsf (2 * (8 * ((1#8).toNat - 1) + (0#3).toNat + 1 + 4)) →
        unpStart.sibuf k = (hostWrite 0x0410#13 4 0xA0009999#32 unpStart).sibuf k) ∧
      unpStart.sibuf 8 = 0x9000#16 ∧ (hostWrite 0x0410#13 4 0xA0009999#32 unpStart).sibuf 8 = 0x9999#16 := by decide

/-- E2's output `11101011` as hard decisions in SIBUF. -/
theorem witness_UnpunctureInvertsPuncturing :
    let t := stateOf (exec (encOf .lsf 1#8 0#3) (withIbuf [0x80#8]))
    let s' := withSibuf [0xFFFF#16, 0xFFFF#16, 0xFFFF#16, 0#16, 0xFFFF#16, 0#16, 0xFFFF#16, 0xFFFF#16]
    (1 ≤ (1#8).toNat ∧ (1#8).toNat ≤ 32) ∧ exec (encOf .lsf 1#8 0#3) (withIbuf [0x80#8]) = .next t ∧
      t.outCount.toNat = 8 ∧
      ∀ k, k < 8 → s'.sibuf k = if t.obufBit k then 0xFFFF#16 else 0x0000#16 :=
  ⟨by decide, rfl, by decide, by decide⟩

/-- An idle block, a word that validation accepts and one it refuses. -/
theorem witness_CommandIssueWhileIdle :
    State.reset.busy = false ∧ validate 0x0000207C#32 = .ok ∧ validate 0x00000000#32 ≠ .ok := by decide

theorem witness_CommandIssueWhileBusyIsDropped : (busyWith 0x00001E70#32 []).busy = true := rfl

/-- The first and the last word of each input buffer, CMD, and words for each clause on CTRL and STATUS. -/
theorem witness_InputWritesWhileBusyAreDropped :
    (busyWith 0x00001E70#32 []).busy = true ∧
      (∀ off ∈ [0x0040#13, 0x005C#13, 0x0400#13, 0x080C#13, 0x0008#13],
        off.toNat % 4 = 0 ∧ (inIbuf off.toNat ∨ inSibuf off.toNat ∨ off = 0x0008#13)) ∧
      (0x1#32).getLsbD 1 = false ∧ (0x2#32).getLsbD 1 = true ∧ (0x4#32).getLsbD 2 = true := by
  simp [busyWith, placeCommand, inIbuf, inSibuf]

/-- A step that acknowledges a completion. -/
theorem witness_NeverIdleWithoutDoneAfterCommand :
    let s := { idleWith [.write 0x000C#13 4 0x2#32] with done := true }
    step s = .next (stateOf (step s)) ∧ s.done = true ∧ (stateOf (step s)).busy = false ∧
      (stateOf (step s)).done = false := ⟨rfl, rfl, rfl, rfl⟩

/-- The same step's second way out: a hardware reset of a busy block. -/
theorem witness_NeverIdleWithoutDoneAfterCommand_reset :
    let s := busyWith 0x00001E70#32 [.assertReset]
    step s = .next (stateOf (step s)) ∧ s.busy = true ∧ (stateOf (step s)).busy = false ∧
      (stateOf (step s)).done = false := ⟨rfl, rfl, rfl, rfl⟩

theorem witness_IbufWordPacking : 0 < 8 ∧ 7 < 8 ∧ State.reset.busy = false := by decide

theorem witness_ObufWordPacking : 0 < 544 ∧ 543 < 544 ∧ State.reset.busy = false := by decide

theorem witness_SoftBufferWordPacking : 0 < 260 ∧ 259 < 260 ∧ State.reset.busy = false := by decide

/-- A narrow access, a misaligned one, and the holes of the map at their ends (B-3, B-4, B-5). -/
theorem witness_BusErrorHasNoEffect :
    (1 ≠ 4) ∧ (0x0002#13).toNat % 4 ≠ 0 ∧
      ∀ off ∈ [0x0014#13, 0x003C#13, 0x0060#13, 0x007C#13, 0x00C4#13, 0x03FC#13, 0x0810#13, 0x0BFC#13, 0x1010#13,
        0x1FFC#13], ¬ mappedOffset off.toNat := by
  simp [mappedOffset, inBuffer, inIbuf, inObuf, inSibuf, inSobuf]

/-- The first and the last word of every mapped range. -/
theorem witness_MappedAccessesAreServed :
    ∀ off ∈ [0x0000#13, 0x0010#13, 0x0040#13, 0x005C#13, 0x0080#13, 0x00C0#13, 0x0400#13, 0x080C#13, 0x0C00#13,
      0x100C#13], off.toNat % 4 = 0 ∧ mappedOffset off.toNat := by
  simp [mappedOffset, inBuffer, inIbuf, inObuf, inSibuf, inSobuf]

/-- A word of each read-only place, and two words that differ only in bits a STATUS or a CTRL write ignores. -/
theorem witness_ReadOnlyWritesAreIgnored :
    (∀ off ∈ [0x0000#13, 0x0010#13, 0x0080#13, 0x00C0#13, 0x0C00#13, 0x100C#13], off.toNat % 4 = 0 ∧
      (off = 0x0000#13 ∨ off = 0x0010#13 ∨ inObuf off.toNat ∨ inSobuf off.toNat) ∧ mappedOffset off.toNat) ∧
      ((0xFFFFFFF9#32).getLsbD 1 = (0x0#32).getLsbD 1 ∧ (0xFFFFFFF9#32).getLsbD 2 = (0x0#32).getLsbD 2) ∧
      ((0xFFFFFFFC#32).getLsbD 0 = (0x0#32).getLsbD 0 ∧ (0xFFFFFFFC#32).getLsbD 1 = (0x0#32).getLsbD 1) := by
  simp [mappedOffset, inBuffer, inIbuf, inObuf, inSibuf, inSobuf]

theorem witness_BufferReadsByEngineState :
    (busyWith 0x00001E70#32 []).busy = true ∧ State.reset.busy = false ∧
      (∀ off ∈ [0x0080#13, 0x00C0#13, 0x0C00#13, 0x100C#13],
        off.toNat % 4 = 0 ∧ (inObuf off.toNat ∨ inSobuf off.toNat) ∧ inBuffer off.toNat) ∧
      ∀ off ∈ [0x0040#13, 0x005C#13, 0x0400#13, 0x080C#13],
        off.toNat % 4 = 0 ∧ (inIbuf off.toNat ∨ inSibuf off.toNat) ∧ inBuffer off.toNat := by
  simp [busyWith, placeCommand, State.reset, inBuffer, inIbuf, inObuf, inSibuf, inSobuf]

theorem witness_RepeatedWritesAreIdempotent :
    (∀ off ∈ [0x0040#13, 0x005C#13, 0x0400#13, 0x080C#13], inIbuf off.toNat ∨ inSibuf off.toNat) ∧
      (0x1#32).getLsbD 1 = false := by
  simp [inIbuf, inSibuf]

theorem witness_ControlWrite : (0xFFFFFFFD#32).getLsbD 1 = false ∧ (0x3#32).getLsbD 1 = true := by decide

/-- A soft reset of an idle block, of one busy with an ENCODE and of one busy with an UNPUNCTURE command. -/
theorem witness_SoftResetKeepsBuffers :
    (0x2#32).getLsbD 1 = true ∧ State.reset.busy = false ∧
      ((busyWith 0x00001E70#32 []).busy = true ∧ opField (busyWith 0x00001E70#32 []).lcmd = 0#2) ∧
      ((busyWith 0x00001E71#32 []).busy = true ∧ opField (busyWith 0x00001E71#32 []).lcmd = 1#2) := by decide

theorem witness_InterruptIsRaisedByCompletion :
    (1 ≤ (Instr.encRaw 1#8 0#3).len.toNat ∧ (Instr.unpLsf 32#8 7#3).len.toNat ≤ 32) ∧
      State.reset.busy = false ∧ validate 0x00000000#32 ≠ .ok ∧ (0x1#32).getLsbD 1 = false := by decide

theorem witness_InterruptIsDeasserted :
    (0x2#32).getLsbD 1 = true ∧ (0x2#32).getLsbD 0 = false ∧ State.reset.busy = false ∧
      validate 0x00001E70#32 = .ok := by decide

/-- A busy block in which the reset input is asserted before the completion. -/
theorem witness_HardwareResetIsOneStep :
    (busyWith 0x00001E70#32 [.assertReset]).pending = .assertReset :: [] ∧
      HostMayMove (busyWith 0x00001E70#32 [.assertReset]) := ⟨rfl, rfl, by decide⟩

/-- In reset: a release, a write, a read and a POLL as the next event. -/
theorem witness_NothingHappensInReset :
    let s := fun e => { idleWith [e] with resetAsserted := true }
    ((s .releaseReset).resetAsserted = true ∧
      step (s .releaseReset) = .next (stateOf (step (s .releaseReset))) ∧
      (stateOf (step (s .releaseReset))).resetAsserted = false) ∧
    (s (.write 0#13 4 0#32)).pending = .write 0#13 4 0#32 :: [] ∧
    (s (.read 0#13 4)).pending = .read 0#13 4 :: [] ∧
    (s (.poll 0x000C#13 1#32 0#32)).pending = .poll 0x000C#13 1#32 0#32 :: [] := ⟨⟨rfl, rfl, rfl⟩, rfl, rfl, rfl⟩

/-- A due engine: no event to come, and an access to come with none left before the completion. -/
theorem witness_StepPerformsDecodedCommand :
    let s := busyWith 0x00001E70#32 []
    let s' := { busyWith 0x00001E71#32 [.read 0x000C#13 4] with latencyLeft := 0 }
    (decode s.lcmd = .ok (.encLsf 30#8 7#3) ∧ s.busy = true ∧ s.resetAsserted = false ∧ s.pending = []) ∧
    (decode s'.lcmd = .ok (.unpLsf 30#8 7#3) ∧ s'.busy = true ∧ s'.resetAsserted = false ∧ s'.latencyLeft = 0 ∧
      s'.irq = false) := ⟨⟨rfl, rfl, rfl, rfl⟩, rfl, rfl, rfl, rfl, rfl⟩

theorem witness_PlacedCommandRunsNext :
    0x00001E70 < 2 ^ 32 ∧ decodeTableWord 32 0x00001E70 = some (.encLsf 30#8 7#3) := ⟨by decide, rfl⟩

/-- The host moves while idle, and while busy with an access left. -/
theorem witness_StepPerformsHostAccess :
    HostMayMove (idleWith [.write 0x0040#13 4 0x1#32]) ∧ HostMayMove (busyWith 0x00001E70#32 [.read 0x000C#13 4]) ∧
      (idleWith [.write 0x0040#13 4 0x1#32]).pending = .write 0x0040#13 4 0x1#32 :: [] ∧
      (busyWith 0x00001E70#32 [.read 0x000C#13 4]).pending = .read 0x000C#13 4 :: [] :=
  ⟨⟨rfl, by decide⟩, ⟨rfl, by decide⟩, rfl, rfl⟩

/-- Each clause: the POLL of BUSY busy and idle; a POLL of LCMD and one at an unmapped offset; WAITIRQ with irq 1, with irq 0 idle, and with irq 0 busy. -/
theorem witness_PollAndWaitIrq :
    let p := HostEvent.poll 0x000C#13 0x1#32 0x0#32
    (HostMayMove (busyWith 0x00001E70#32 [p]) ∧ (busyWith 0x00001E70#32 [p]).pending = p :: []) ∧
    (HostMayMove (idleWith [p]) ∧ (idleWith [p]).pending = p :: []) ∧
    (∀ q ∈ [HostEvent.poll 0x0008#13 0xFFFFFFFF#32 0#32, HostEvent.poll 0x1FFC#13 0#32 1#32],
      HostMayMove (idleWith [q]) ∧ (idleWith [q]).pending = q :: []) ∧
    (HostMayMove { idleWith [.waitIrq] with ie := true, done := true } ∧
      State.irq { idleWith [.waitIrq] with ie := true, done := true } = true) ∧
    (HostMayMove (idleWith [.waitIrq]) ∧ (idleWith [.waitIrq]).irq = false ∧ (idleWith [.waitIrq]).busy = false) ∧
    (HostMayMove (busyWith 0x00001E70#32 [.waitIrq]) ∧ (busyWith 0x00001E70#32 [.waitIrq]).irq = false ∧
      (busyWith 0x00001E70#32 [.waitIrq]).busy = true) :=
  ⟨⟨⟨rfl, by decide⟩, rfl⟩, ⟨⟨rfl, by decide⟩, rfl⟩, fun _ _ => ⟨⟨rfl, fun h => by cases h⟩, rfl⟩,
    ⟨⟨rfl, by decide⟩, rfl⟩, ⟨⟨rfl, by decide⟩, rfl, rfl⟩, ⟨rfl, by decide⟩, rfl, rfl⟩

theorem witness_IdleBlockKeepsItsState :
    State.reset.busy = false ∧ State.reset.resetAsserted = false ∧ State.reset.pending = [] := ⟨rfl, rfl, rfl⟩

/-- A state other than reset that meets the invariant and steps: busy with a valid command, IBUF written. -/
theorem witness_StepKeepsInvariant :
    let s := placeCommand 0x0000010C#32 (withIbuf [0x80#8])
    s.Inv ∧ step s = .next (stateOf (step s)) :=
  ⟨⟨by decide, by decide, by decide, by decide, by decide, by decide, by decide, by decide,
    fun h => by cases h⟩, rfl⟩

/-- A busy block that stays busy through a host access. -/
theorem witness_BusyExcludesDone :
    let s := busyWith 0x00001E70#32 [.read 0x000C#13 4]
    (s.busy = true → s.done = false) ∧ step s = .next (stateOf (step s)) ∧ (stateOf (step s)).busy = true :=
  ⟨fun _ => rfl, rfl, rfl⟩

/-- A busy block, an access, a WAITIRQ and a CTRL write without SRST to come. -/
theorem witness_BusyCommandCompletes :
    let s := busyWith 0x00001E70#32 [.read 0x000C#13 4, .waitIrq, .write 0x0004#13 4 0x1#32]
    s.busy = true ∧ s.done = false ∧ s.resetAsserted = false ∧ ∀ e ∈ s.pending, noReset e = true :=
  ⟨rfl, rfl, rfl, by decide⟩

/-- A step that leaves the block busy, and one that completes its command. -/
theorem witness_InputsAreStableWhileBusy :
    let s := busyWith 0x00001E70#32 [.write 0x0040#13 4 0x1#32]
    let s' := busyWith 0x00001E70#32 []
    (step s = .next (stateOf (step s)) ∧ s.busy = true ∧ s.done = false ∧ s.resetAsserted = false ∧
      (stateOf (step s)).busy = true) ∧
    (step s' = .next (stateOf (step s')) ∧ s'.busy = true ∧ s'.done = false ∧ s'.resetAsserted = false ∧
      (stateOf (step s')).done = true) ∧
    (inIbuf 0x0040 ∧ inIbuf 0x005F ∧ inSibuf 0x0400 ∧ inSibuf 0x080F) :=
  ⟨⟨rfl, rfl, rfl, rfl, rfl⟩, ⟨rfl, rfl, rfl, rfl, rfl⟩, by decide⟩

/-- An early IBUF write. -/
theorem witness_OverrunOnlyByDroppedWrite :
    let s := busyWith 0x00001E70#32 [.write 0x0040#13 4 0x1#32]
    step s = .next (stateOf (step s)) ∧ s.ovr = false ∧ (stateOf (step s)).ovr = true := ⟨rfl, rfl, rfl⟩

/-- An IBUF write while idle changes a byte written before. -/
theorem witness_InputBuffersChangeOnlyByHost :
    let s := { withIbuf [0x5A#8, 0#8, 0#8, 0#8] with pending := [.write 0x0040#13 4 0x1#32] }
    step s = .next (stateOf (step s)) ∧ inIbuf 0x0040 ∧ (stateOf (step s)).byteAt 0x0040 ≠ s.byteAt 0x0040 :=
  ⟨rfl, by decide, by decide⟩

/-- An ENCODE completion changes an OBUF byte held before, an UNPUNCTURE completion a SOBUF byte. -/
theorem witness_OutputBuffersChangeOnlyByTheirFamily :
    let s := placeCommand 0x0000010C#32 ((withIbuf [0x80#8]).writeBytes obufBase [0x5A#8])
    let s' := placeCommand 0x0000010D#32 (unpStart.writeBytes sobufBase [0x5A#8])
    (step s = .next (stateOf (step s)) ∧ (stateOf (step s)).byteAt 0x0080 ≠ s.byteAt 0x0080 ∧ inObuf 0x0080) ∧
    (step s' = .next (stateOf (step s')) ∧ (stateOf (step s')).byteAt 0x0C00 ≠ s'.byteAt 0x0C00 ∧ inSobuf 0x0C00) :=
  ⟨⟨rfl, by decide, by decide⟩, rfl, by decide, by decide⟩

/-- A CTRL write that sets IE, and a CMD write that changes the latch. -/
theorem witness_ControlAndLatchChangeOnlyByHost :
    let s := idleWith [.write 0x0004#13 4 0x1#32]
    let s' := idleWith [.write 0x0008#13 4 0x00001E70#32]
    (step s = .next (stateOf (step s)) ∧ (stateOf (step s)).ie ≠ s.ie) ∧
    (step s' = .next (stateOf (step s')) ∧ (stateOf (step s')).lcmd ≠ s'.lcmd) :=
  ⟨⟨rfl, by decide⟩, rfl, by decide⟩

end Sys2Proof.Tests
end

/-! Proofs for the state's family (10_state.md): what decoding fixes for the engine, what a completion, a bus write and
a step can change, and from them the invariant of the block and the statements on its registers and buffers. -/

namespace Sys2Proof.Machine

/-! ## Decoding, as the engine uses it -/

/-- The four values of OP (30_encoding.md R39): the two reserved ones are those that are neither family's. -/
theorem reserved_op_iff (o : BitVec 2) : (o = 2#2 ∨ o = 3#2) ↔ o ≠ 0#2 ∧ o ≠ 1#2 := by
  revert o; decide

theorem encCommand_eq_encOf (w : Word) : ∃ p, encCommand w = encOf p (lenField w) (fbField w) := by
  unfold encCommand
  split
  · exact ⟨.lsf, rfl⟩
  split
  · exact ⟨.pkt, rfl⟩
  split
  · exact ⟨.str, rfl⟩
  · exact ⟨.raw, rfl⟩

theorem unpCommand_eq_unpOf (w : Word) : ∃ p, unpCommand w = unpOf p (lenField w) (fbField w) := by
  unfold unpCommand
  split
  · exact ⟨.lsf, rfl⟩
  split
  · exact ⟨.pkt, rfl⟩
  split
  · exact ⟨.str, rfl⟩
  · exact ⟨.raw, rfl⟩

/-- What a word that names a command is: no reserved bit, and OP of the command's family. -/
theorem decode_ok_cases {w : Word} {i : Instr} (h : decode w = .ok i) :
    reservedSet w = false ∧
      ((opField w = 0#2 ∧ ∃ p, i = encOf p (lenField w) (fbField w)) ∨
       (opField w = 1#2 ∧ ∃ p, i = unpOf p (lenField w) (fbField w))) := by
  unfold decode at h
  split at h
  · cases h
  rename_i hr
  refine ⟨by simpa using hr, ?_⟩
  split at h
  · rename_i hop; cases h; exact .inl ⟨hop, encCommand_eq_encOf w⟩
  split at h
  · rename_i hop; cases h; exact .inr ⟨hop, unpCommand_eq_unpOf w⟩
  · cases h

/-- A word that names no command fails validation with the error of its decoding (R44, 60_exceptions.md R83). -/
theorem validate_of_decode_error {w : Word} {e : ErrCode} (h : decode w = .error e) : validate w = e := by
  unfold decode at h
  split at h
  · rename_i hr; cases h; rw [validate, if_pos hr]
  rename_i hr
  split at h
  · cases h
  rename_i h0
  split at h
  · cases h
  rename_i h1
  cases h
  rw [validate, if_neg hr, if_pos ((reserved_op_iff _).2 ⟨h0, h1⟩)]

/-- A word that names a command is valid exactly when its LEN is legal, and else fails with ERR_LEN (R83). -/
theorem validate_of_decode_ok {w : Word} {i : Instr} (h : decode w = .ok i) :
    validate w = if lenLegal (lenField w) then .ok else .len := by
  obtain ⟨hr, hop⟩ := decode_ok_cases h
  have hop' : ¬(opField w = 2#2 ∨ opField w = 3#2) := by
    rw [reserved_op_iff]
    rcases hop with ⟨h0, -⟩ | ⟨h1, -⟩
    · simp [h0]
    · simp [h1]
  have hlen : (lenField w = 0#8 ∨ 32 < (lenField w).toNat) ↔ ¬ lenLegal (lenField w) = true := by
    rw [lenLegal_iff, BitVec.toNat_eq, BitVec.toNat_ofNat]
    omega
  rw [validate, if_neg (by simp [hr]), if_neg hop', if_congr hlen rfl rfl, ite_not]

/-! ## The engine's step -/

/-- The three ways the engine's step ends: the error validation gives of the word in LCMD, or the completion of a
command of the family of its OP. -/
inductive EngineShape (s t : State) : Prop where
  | error (e : ErrCode) (hv : validate s.lcmd = e) (ht : t = cmdError e s)
  | encoded (p : Pattern) (len : BitVec 8) (fb : BitVec 3) (hop : opField s.lcmd = 0#2)
      (hl : lenLegal len = true) (ht : t = completeOk (encodeComplete p len fb s))
  | unpunctured (p : Pattern) (len : BitVec 8) (fb : BitVec 3) (hop : opField s.lcmd = 1#2)
      (hl : lenLegal len = true) (ht : t = completeOk (unpunctureComplete p len fb s))

theorem performCommand_shape {s t : State} (h : performCommand s = .next t) : EngineShape s t := by
  obtain ⟨i, hd, hp⟩ | ⟨e, hd, hp⟩ := performCommand_cases s
  · have hv := validate_of_decode_ok hd
    rw [hp] at h
    obtain ⟨-, ⟨hop, p, rfl⟩ | ⟨hop, p, rfl⟩⟩ := decode_ok_cases hd
    · rw [exec_encOf, encodeCommand] at h
      split at h
      · rename_i hl; cases h; exact .encoded p _ _ hop hl rfl
      · rename_i hl; cases h; exact .error .len (by rw [hv, if_neg hl]) rfl
    · rw [exec_unpOf, unpunctureCommand] at h
      split at h
      · rename_i hl; cases h; exact .unpunctured p _ _ hop hl rfl
      · rename_i hl; cases h; exact .error .len (by rw [hv, if_neg hl]) rfl
  · rw [hp] at h; cases h
    exact .error e (validate_of_decode_error hd) rfl

/-- The engine's step leaves the block idle with DONE 1 (30_encoding.md R50). -/
theorem EngineShape.idle_done {s t : State} (h : EngineShape s t) : t.busy = false ∧ t.done = true := by
  cases h with
  | error e hv ht => subst ht; exact ⟨rfl, rfl⟩
  | encoded p len fb hop hl ht => subst ht; exact ⟨rfl, rfl⟩
  | unpunctured p len fb hop hl ht => subst ht; exact ⟨rfl, rfl⟩

theorem cmdError_kept (e : ErrCode) (s : State) : KeptByCommand s (cmdError e s) :=
  ⟨rfl, rfl, rfl, rfl, rfl, rfl, rfl, rfl⟩

theorem encode_kept (p : Pattern) (len : BitVec 8) (fb : BitVec 3) (s : State) :
    KeptByCommand s (completeOk (encodeComplete p len fb s)) :=
  ⟨rfl, rfl, rfl, rfl, rfl, rfl, rfl, rfl⟩

theorem unpuncture_kept (p : Pattern) (len : BitVec 8) (fb : BitVec 3) (s : State) :
    KeptByCommand s (completeOk (unpunctureComplete p len fb s)) :=
  ⟨rfl, rfl, rfl, rfl, rfl, rfl, rfl, rfl⟩

/-- The engine's step keeps what no command writes, IE and LCMD among it. -/
theorem EngineShape.kept {s t : State} (h : EngineShape s t) : KeptByCommand s t := by
  cases h with
  | error e hv ht => subst ht; exact cmdError_kept e s
  | encoded p len fb hop hl ht => subst ht; exact encode_kept p len fb s
  | unpunctured p len fb hop hl ht => subst ht; exact unpuncture_kept p len fb s

/-! ## A bus write -/

/-- Everything a bus write can do, each with the accesses that do it. -/
inductive WriteShape (off : BitVec 13) (bytes : Nat) (v : Word) (s t : State) : Prop where
  /-- The error response, or a read-only location: only the response changes. -/
  | ignored (ht : t = { s with response := t.response })
  /-- A CMD or input-buffer write while busy. -/
  | dropped (h4 : bytes = 4) (hb : s.busy = true) (ho : off = 0x0008#13 ∨ inIbuf off.toNat ∨ inSibuf off.toNat)
      (ht : t = { overrun s with response := some .writeOk })
  /-- A CTRL write without SRST. -/
  | setsIe (h4 : bytes = 4) (ho : off = 0x0004#13) (hv : v.getLsbD 1 = false)
      (ht : t = { s with ie := v.getLsbD 0, response := some .writeOk })
  /-- A CTRL write with SRST. -/
  | resets (h4 : bytes = 4) (ho : off = 0x0004#13) (hv : v.getLsbD 1 = true)
      (ht : t = { softReset s with response := some .writeOk })
  /-- A STATUS write. -/
  | clears (h4 : bytes = 4) (ho : off = 0x000C#13) (ht : t = { statusWrite v s with response := some .writeOk })
  /-- A valid command issued while idle. -/
  | accepted (h4 : bytes = 4) (ho : off = 0x0008#13) (hb : s.busy = false) (hv : validate v = .ok)
      (ht : t = { accept { s with lcmd := v, done := false, errcode := .ok } with response := some .writeOk })
  /-- An invalid command issued while idle. -/
  | rejected (h4 : bytes = 4) (ho : off = 0x0008#13) (hb : s.busy = false) (hv : validate v ≠ .ok)
      (ht : t = { cmdError (validate v) { s with lcmd := v, done := false, errcode := .ok } with
                  response := some .writeOk })
  /-- An input-buffer word written while idle. -/
  | stored (h4 : bytes = 4) (hal : off.toNat % 4 = 0) (ho : inIbuf off.toNat ∨ inSibuf off.toNat)
      (hb : s.busy = false)
      (ht : t = { s.writeBytes off.toNat (wordBytes v) with response := some .writeOk })

theorem hostWrite_shape (off : BitVec 13) (bytes : Nat) (v : Word) (s : State) :
    WriteShape off bytes v s (hostWrite off bytes v s) := by
  obtain ⟨-, h⟩ | ⟨h4, hal, ⟨ho, h⟩ | ⟨ho, h⟩ | ⟨ho, h⟩ | ⟨ho, h⟩ | ⟨-, h⟩⟩ := hostWrite_cases off bytes v s
  · rw [h]; exact .ignored rfl
  · rw [h, ctrlWrite]
    split
    · rename_i hv; exact .resets h4 ho hv rfl
    · rename_i hv; exact .setsIe h4 ho (by simpa using hv) rfl
  · obtain ⟨hb, hc⟩ | ⟨hb, hv, hc⟩ | ⟨hb, hv, hc⟩ := cmdWrite_cases v s
    · rw [h, hc]; exact .dropped h4 hb (.inl ho) rfl
    · rw [h, hc]; exact .accepted h4 ho hb hv rfl
    · rw [h, hc]; exact .rejected h4 ho hb hv rfl
  · rw [h]; exact .clears h4 ho rfl
  · rw [h, inputWrite]
    split
    · rename_i hb; exact .dropped h4 hb (.inr ho) rfl
    · rename_i hb; exact .stored h4 hal ho (by simpa using hb) rfl
  · rw [h]; exact .ignored rfl

/-! ## The registers as words -/

theorem toNat_append_eq_add {m n : Nat} (x : BitVec m) (y : BitVec n) :
    (x ++ y).toNat = x.toNat * 2 ^ n + y.toNat := by
  rw [BitVec.toNat_append, ← Nat.shiftLeft_add_eq_or_of_lt y.isLt, Nat.shiftLeft_eq]

/-- CTRL by number (10_state.md R9). -/
theorem ctrlWord_toNat (s : State) : (ctrlWord s).toNat = s.ie.toNat := by
  rw [ctrlWord, toNat_append_eq_add, BitVec.toNat_ofBool]
  simp

/-- STATUS by number (R11). -/
theorem statusWord_toNat (s : State) :
    (statusWord s).toNat = s.busy.toNat + 2 * s.done.toNat + 4 * s.ovr.toNat + 256 * s.errcode.code.toNat := by
  simp only [statusWord, toNat_append_eq_add, BitVec.toNat_ofNat, BitVec.toNat_ofBool]
  omega

/-- OUTCNT by number (R12). -/
theorem outcntWord_toNat (s : State) :
    (outcntWord s).toNat = s.outCount.toNat + 65536 * s.inCount.toNat := by
  simp only [outcntWord, toNat_append_eq_add, BitVec.toNat_ofNat]
  omega

theorem hostRead_id (s : State) : (hostRead 0x0000#13 4 s).response = some (.readOk idWord) := rfl
theorem hostRead_ctrl (s : State) : (hostRead 0x0004#13 4 s).response = some (.readOk (ctrlWord s)) := rfl
theorem hostRead_cmd (s : State) : (hostRead 0x0008#13 4 s).response = some (.readOk s.lcmd) := rfl
theorem hostRead_status (s : State) : (hostRead 0x000C#13 4 s).response = some (.readOk (statusWord s)) := rfl
theorem hostRead_outcnt (s : State) : (hostRead 0x0010#13 4 s).response = some (.readOk (outcntWord s)) := rfl

theorem hostWrite_ctrl (v : Word) (s : State) :
    hostWrite 0x0004#13 4 v s = { ctrlWrite v s with response := some .writeOk } := rfl
theorem hostWrite_status (v : Word) (s : State) :
    hostWrite 0x000C#13 4 v s = { statusWrite v s with response := some .writeOk } := rfl

/-! ## What a reset leaves -/

theorem clearRegisters_atReset (s : State) : AtReset (clearRegisters s) :=
  ⟨rfl, rfl, rfl, rfl, rfl, rfl, rfl, rfl, rfl, rfl⟩

theorem softReset_atReset (s : State) : AtReset (softReset s) := clearRegisters_atReset _

theorem hardReset_atReset (s : State) : AtReset (hardReset s) := ⟨rfl, rfl, rfl, rfl, rfl, rfl, rfl, rfl, rfl, rfl⟩

theorem abandon_resetAsserted (s : State) : (abandon s).resetAsserted = s.resetAsserted := by
  unfold abandon
  split
  · rfl
  split <;> rfl

theorem softReset_resetAsserted (s : State) : (softReset s).resetAsserted = s.resetAsserted := by
  rw [softReset, clearRegisters_resetAsserted]
  split
  · exact abandon_resetAsserted s
  · rfl

/-- The registers of R94 do not include the response, the events or the level of the reset input. -/
theorem AtReset.of_bus {s : State} (h : AtReset s) (events : List HostEvent) (r : Option BusResponse) (n k : Nat)
    (level : Bool) :
    AtReset { s with pending := events, response := r, draws := n, latencyLeft := k, resetAsserted := level } :=
  ⟨h.ie, h.lcmd, h.busy, h.done, h.ovr, h.errcode, h.outCount, h.inCount, h.sr, h.pidx⟩

/-! ## The bytes a step changes -/

/-- The ways a byte of the window comes to read otherwise after a step. -/
inductive ByteChange (s t : State) (a : Nat) : Prop where
  /-- An ENCODE command ended, completed or abandoned. -/
  | encodeEnded (hb : s.busy = true) (ht : t.busy = false) (hop : opField s.lcmd = 0#2) (ha : inObuf a)
  /-- An UNPUNCTURE command ended, completed or abandoned. -/
  | unpunctureEnded (hb : s.busy = true) (ht : t.busy = false) (hop : opField s.lcmd = 1#2) (ha : inSobuf a)
  /-- The host wrote the word of an input buffer that holds the byte, while idle. -/
  | hostStore (hb : s.busy = false) (off : BitVec 13) (v : Word) (rest : List HostEvent)
      (hp : s.pending = .write off 4 v :: rest) (hal : off.toNat % 4 = 0) (h1 : off.toNat ≤ a)
      (h2 : a < off.toNat + 4) (ha : inIbuf a ∨ inSibuf a)
  /-- The reset input was asserted. -/
  | hardReset (rest : List HostEvent) (hp : s.pending = .assertReset :: rest)

/-- A byte that a write to memory changes is one it writes. -/
theorem written_of_byteAt_ne {s t : State} {a x : Nat} {bs : List Byte} (hne : t.byteAt x ≠ s.byteAt x)
    (hm : t.mem = s.mem.write a bs) (he : t.epoch = s.epoch) : a ≤ x ∧ x < a + bs.length := by
  by_contra hx
  exact hne (byteAt_of_write_outside hm he hx)

theorem inObuf_of_written {a n : Nat} (hn : n = obufSize) (h : obufBase ≤ a ∧ a < obufBase + n) : inObuf a := by
  simp only [hn, obufBase, obufSize] at h; omega

theorem inSobuf_of_written {a n : Nat} (hn : n = softSize) (h : sobufBase ≤ a ∧ a < sobufBase + n) : inSobuf a := by
  simp only [hn, sobufBase, softSize] at h; omega

/-- The UNPUNCTURE completion writes all of SOBUF (41_unpuncture.md R74). -/
theorem packSofts_padErasures_length (p : Pattern) {len : BitVec 8} (fb : BitVec 3) (src : Nat → SoftBit)
    (hl : lenLegal len = true) :
    (packSofts (padErasures (unpuncture (codeLength len fb) (patternEntries p) src))).length = softSize := by
  rw [packSofts_length, padErasures_length _ (by
    rw [unpuncture_length]; exact codeLength_le len fb ((lenLegal_iff len).1 hl).2)]
  rfl

theorem EngineShape.byteChange {s t : State} {a : Nat} (h : EngineShape s t) (hb : s.busy = true)
    (hne : t.byteAt a ≠ s.byteAt a) : ByteChange s t a := by
  obtain ⟨hidle, -⟩ := h.idle_done
  cases h with
  | error e hv ht => subst ht; exact absurd (byteAt_congr rfl rfl a) hne
  | encoded p len fb hop hl ht =>
    subst ht
    exact .encodeEnded hb hidle hop (inObuf_of_written (packBits_length _) (written_of_byteAt_ne hne rfl rfl))
  | unpunctured p len fb hop hl ht =>
    subst ht
    exact .unpunctureEnded hb hidle hop
      (inSobuf_of_written (packSofts_padErasures_length p fb _ hl) (written_of_byteAt_ne hne rfl rfl))

/-- A byte that a soft reset changes is one of the output buffer of the command it abandons
(70_reset_and_hazards.md R99). -/
theorem softReset_byteAt_ne {s : State} {a : Nat} (hne : (softReset s).byteAt a ≠ s.byteAt a) :
    s.busy = true ∧ ((opField s.lcmd = 0#2 ∧ inObuf a) ∨ (opField s.lcmd = 1#2 ∧ inSobuf a)) := by
  obtain ⟨-, h⟩ | ⟨hb, hop, h⟩ | ⟨hb, hop, h⟩ | ⟨-, -, -, h⟩ := softReset_cases s
  · rw [h] at hne; exact absurd (byteAt_congr rfl rfl a) hne
  · rw [h] at hne
    exact ⟨hb, .inl ⟨hop, inObuf_of_written (drawBytes_length _ _) (written_of_byteAt_ne hne rfl rfl)⟩⟩
  · rw [h] at hne
    exact ⟨hb, .inr ⟨hop, inSobuf_of_written (drawBytes_length _ _) (written_of_byteAt_ne hne rfl rfl)⟩⟩
  · rw [h] at hne; exact absurd (byteAt_congr rfl rfl a) hne

/-- The four bytes of an aligned input-buffer word lie in that buffer. -/
theorem inInput_of_word {off a : Nat} (hal : off % 4 = 0) (ho : inIbuf off ∨ inSibuf off) (h1 : off ≤ a)
    (h2 : a < off + 4) : inIbuf a ∨ inSibuf a := by
  omega

theorem WriteShape.byteChange {off : BitVec 13} {bytes : Nat} {v : Word} {rest : List HostEvent} {s t : State}
    {a : Nat} (h : WriteShape off bytes v (consume rest s) t) (hp : s.pending = .write off bytes v :: rest)
    (hne : t.byteAt a ≠ s.byteAt a) : ByteChange s t a := by
  cases h with
  | ignored ht => rw [ht] at hne; exact absurd (byteAt_congr rfl rfl a) hne
  | dropped h4 hb ho ht => subst ht; exact absurd (byteAt_congr rfl rfl a) hne
  | setsIe h4 ho hv ht => subst ht; exact absurd (byteAt_congr rfl rfl a) hne
  | resets h4 ho hv ht =>
    subst ht
    obtain ⟨hb, ⟨hop, ha⟩ | ⟨hop, ha⟩⟩ := softReset_byteAt_ne (s := consume rest s) hne
    · exact .encodeEnded hb rfl hop ha
    · exact .unpunctureEnded hb rfl hop ha
  | clears h4 ho ht => subst ht; exact absurd (byteAt_congr rfl rfl a) hne
  | accepted h4 ho hb hv ht => subst ht; exact absurd (byteAt_congr rfl rfl a) hne
  | rejected h4 ho hb hv ht => subst ht; exact absurd (byteAt_congr rfl rfl a) hne
  | stored h4 hal ho hb ht =>
    subst h4 ht
    obtain ⟨h1, h2⟩ := written_of_byteAt_ne (s := s) hne rfl rfl
    rw [wordBytes_length] at h2
    exact .hostStore hb off v rest hp hal h1 h2 (inInput_of_word hal ho h1 h2)

theorem step_byteChange {s t : State} {a : Nat} (h : step s = .next t) (hne : t.byteAt a ≠ s.byteAt a) :
    ByteChange s t a := by
  cases step_shape h with
  | inReset hr ht hrel => rw [ht] at hne; exact absurd (byteAt_congr rfl rfl a) hne
  | engine hr hb h => exact (performCommand_shape h).byteChange hb hne
  | write hr off bytes v rest hp ht =>
    subst ht; exact (hostWrite_shape off bytes v (consume rest s)).byteChange hp hne
  | read hr ht => rw [ht] at hne; exact absurd (byteAt_congr rfl rfl a) hne
  | reset hr rest hp ht => exact .hardReset rest hp
  | quiet hr ht => rw [ht] at hne; exact absurd (byteAt_congr rfl rfl a) hne

/-! ## The invariant of the block, operation by operation -/

/-- A write of memory within one buffer lists buffer cells only. -/
theorem write_inBuffer {m : Memory} {a : Nat} {bs : List Byte} (hm : ∀ c ∈ m, inBuffer c.1)
    (hr : ∀ x, a ≤ x ∧ x < a + bs.length → inBuffer x) : ∀ c ∈ m.write a bs, inBuffer c.1 := by
  intro c hc
  rcases mem_write hc with hw | hold
  · exact hr c.1 hw
  · exact hm c hold

theorem inBuffer_of_obuf {a : Nat} (h : inObuf a) : inBuffer a := .inr (.inl h)

theorem inBuffer_of_sobuf {a : Nat} (h : inSobuf a) : inBuffer a := .inr (.inr (.inr h))

theorem inBuffer_of_input {a : Nat} (h : inIbuf a ∨ inSibuf a) : inBuffer a := by
  rcases h with h | h
  · exact .inl h
  · exact .inr (.inr (.inl h))

/-- A state with its registers at reset meets the invariant as soon as its memory does. -/
theorem inv_of_atReset {s : State} (ha : AtReset s) (hwf : Memory.wf s.mem) (hin : ∀ c ∈ s.mem, inBuffer c.1)
    (hmem : s.resetAsserted = true → s.mem = []) : s.Inv where
  memCanonical := hwf
  memInBuffers := hin
  busyNotDone _ := ha.done
  busyValid hb := by simp [ha.busy] at hb
  busyCleared _ := ⟨ha.errcode, ha.outCount, ha.inCount⟩
  errorRecorded he := absurd ha.errcode he
  countsBounded := by simp [ha.outCount, ha.inCount]
  srZero := ha.sr
  inReset hr := ⟨ha, hmem hr⟩

/-- The invariant speaks neither of the events to come, nor of the response, nor of the model's counts. -/
theorem State.Inv.of_bus {s : State} (h : s.Inv) (events : List HostEvent) (r : Option BusResponse) (n k : Nat) :
    State.Inv { s with pending := events, response := r, draws := n, latencyLeft := k } :=
  { h with inReset := fun hr => ⟨(h.inReset hr).1.of_bus events r n k s.resetAsserted, (h.inReset hr).2⟩ }

theorem State.Inv.respond {s : State} (h : s.Inv) (r : Option BusResponse) : State.Inv { s with response := r } :=
  h.of_bus s.pending r s.draws s.latencyLeft

theorem State.Inv.consume {s : State} (h : s.Inv) (rest : List HostEvent) : (consume rest s).Inv :=
  h.of_bus rest s.response s.draws (s.latencyLeft - 1)

theorem hardReset_inv (s : State) : (hardReset s).Inv :=
  inv_of_atReset (hardReset_atReset s) .nil (by simp) (fun _ => rfl)

section Operations

variable {s : State} (h : s.Inv) (hra : s.resetAsserted = false)
include h hra

theorem State.Inv.overrun : (overrun s).Inv :=
  { h with inReset := fun hr => nomatch hra.symm.trans hr }

theorem State.Inv.setIe (b : Bool) : State.Inv { s with ie := b } :=
  { h with inReset := fun hr => nomatch hra.symm.trans hr }

theorem State.Inv.statusWrite (v : Word) : (statusWrite v s).Inv :=
  { h with
    busyNotDone := fun hb => by rw [statusWrite_done, h.busyNotDone hb, Bool.false_and]
    inReset := fun hr => nomatch hra.symm.trans hr }

/-- The first half of an issue (30_encoding.md R48): the word latched, DONE and ERRCODE cleared. -/
theorem State.Inv.latch (hb : s.busy = false) (w : Word) :
    State.Inv { s with lcmd := w, done := false, errcode := .ok } :=
  { h with
    busyNotDone := fun _ => rfl
    busyValid := fun hb' => nomatch hb.symm.trans hb'
    busyCleared := fun hb' => nomatch hb.symm.trans hb'
    errorRecorded := fun he => absurd rfl he
    inReset := fun hr => nomatch hra.symm.trans hr }

theorem State.Inv.accept (hv : validate s.lcmd = .ok) (hd : s.done = false) (he : s.errcode = .ok) :
    (accept s).Inv :=
  { h with
    busyNotDone := fun _ => hd
    busyValid := fun _ => hv
    busyCleared := fun _ => ⟨he, rfl, rfl⟩
    errorRecorded := fun he' => absurd he he'
    countsBounded := ⟨Nat.zero_le _, Nat.zero_le _⟩
    inReset := fun hr => nomatch hra.symm.trans hr }

theorem State.Inv.cmdError {e : ErrCode} (hv : validate s.lcmd = e) : (cmdError e s).Inv :=
  { h with
    busyNotDone := nofun
    busyValid := nofun
    busyCleared := nofun
    errorRecorded := fun _ => ⟨hv, rfl, rfl⟩
    countsBounded := ⟨Nat.zero_le _, Nat.zero_le _⟩
    inReset := fun hr => nomatch hra.symm.trans hr }

theorem State.Inv.writeBytes {a : Nat} {bs : List Byte} (hin : ∀ x, a ≤ x ∧ x < a + bs.length → inBuffer x) :
    (s.writeBytes a bs).Inv :=
  { h with
    memCanonical := write_wf h.memCanonical a bs
    memInBuffers := write_inBuffer h.memInBuffers hin
    inReset := fun hr => nomatch hra.symm.trans hr }

theorem State.Inv.abandon : (abandon s).Inv := by
  unfold Machine.abandon
  split
  · exact (h.writeBytes hra fun x hx =>
      inBuffer_of_obuf (inObuf_of_written (drawBytes_length s.draws _) hx)).of_bus _ _ _ _
  split
  · exact (h.writeBytes hra fun x hx =>
      inBuffer_of_sobuf (inSobuf_of_written (drawBytes_length s.draws _) hx)).of_bus _ _ _ _
  · exact h

theorem State.Inv.softReset : (softReset s).Inv := by
  have hs : (if s.busy then Machine.abandon s else s).Inv := by
    split
    · exact h.abandon hra
    · exact h
  exact inv_of_atReset (softReset_atReset s) hs.memCanonical hs.memInBuffers
    (fun hr => by simp [softReset_resetAsserted, hra] at hr)

/-- A completion leaves the invariant: it writes within a buffer, keeps the shift register at 0000 and leaves counts of
at most 520. -/
theorem State.Inv.completeOk {a : Nat} {bs : List Byte} (hin : ∀ x, a ≤ x ∧ x < a + bs.length → inBuffer x)
    {m n : Nat} (hm : m ≤ 520) (hn : n ≤ 520) (r : BitVec 4) (hr : r = 0#4) (i : Nat) :
    (completeOk { s with mem := s.mem.write a bs, outCount := BitVec.ofNat 10 m, inCount := BitVec.ofNat 10 n,
                         sr := r, pidx := i }).Inv where
  memCanonical := write_wf h.memCanonical a bs
  memInBuffers := write_inBuffer h.memInBuffers hin
  busyNotDone := nofun
  busyValid := nofun
  busyCleared := nofun
  errorRecorded he := absurd rfl he
  countsBounded := ⟨(Nat.mod_le _ _).trans hm, (Nat.mod_le _ _).trans hn⟩
  srZero := hr
  inReset hr := nomatch hra.symm.trans hr

end Operations

/-! ## The counters a completion leaves -/

theorem ones_le_length (P : List Bool) : ones P ≤ P.length := List.count_le_length

/-- No more bits are kept than there are (40_encode.md R63). -/
theorem kept_le (T : Nat) (P : List Bool) : kept T P ≤ T := by
  have hfull : T / P.length * ones P ≤ T / P.length * P.length := Nat.mul_le_mul_left _ (ones_le_length P)
  have hrest : ones (P.take (T % P.length)) ≤ T % P.length :=
    (ones_le_length _).trans (List.length_take_le _ _)
  have hsum := Nat.div_add_mod' T P.length
  unfold kept
  omega

section Counters

variable {len : BitVec 8} (hl : lenLegal len = true) (fb : BitVec 3)
include hl

theorem codeLength_le_of_legal : codeLength len fb ≤ 520 :=
  codeLength_le len fb ((lenLegal_iff len).1 hl).2

theorem inputCount_le_of_legal : inputCount len fb ≤ 520 := by
  have := codeLength_le_of_legal hl fb
  unfold codeLength at this
  omega

theorem punctured_length_le (p : Pattern) (s : State) :
    (puncture (convEncode (inputBits s len fb)) (patternEntries p)).length ≤ 520 := by
  have hT := codeLength_le_of_legal hl fb
  have hle := refRank_le p (codeLength len fb)
  rw [refRank_eq_refKept] at hle
  rw [puncture_length, convEncode_length, inputBits_length s len fb ((lenLegal_iff len).1 hl).1]
  exact hle.trans hT

end Counters

/-! ## The invariant of the block, kept by every step -/

theorem EngineShape.keeps_inv {s t : State} (ht : EngineShape s t) (h : s.Inv) (hra : s.resetAsserted = false) :
    t.Inv := by
  cases ht with
  | error e hv ht => subst ht; exact h.cmdError hra hv
  | encoded p len fb hop hl ht =>
    subst ht
    exact h.completeOk hra (fun x hx => inBuffer_of_obuf (inObuf_of_written (packBits_length _) hx))
      (punctured_length_le hl fb p s) (inputCount_le_of_legal hl fb) _ (srAfter_eq_zero _) 0
  | unpunctured p len fb hop hl ht =>
    subst ht
    exact h.completeOk hra
      (fun x hx => inBuffer_of_sobuf (inSobuf_of_written (packSofts_padErasures_length p fb s.sibuf hl) hx))
      (codeLength_le_of_legal hl fb) ((kept_le _ _).trans (codeLength_le_of_legal hl fb)) s.sr h.srZero 0

theorem WriteShape.keeps_inv {off : BitVec 13} {bytes : Nat} {v : Word} {s t : State}
    (ht : WriteShape off bytes v s t) (h : s.Inv) (hra : s.resetAsserted = false) : t.Inv := by
  cases ht with
  | ignored ht => rw [ht]; exact h.respond _
  | dropped h4 hb ho ht => subst ht; exact (h.overrun hra).respond _
  | setsIe h4 ho hv ht => subst ht; exact (h.setIe hra _).respond _
  | resets h4 ho hv ht => subst ht; exact (h.softReset hra).respond _
  | clears h4 ho ht => subst ht; exact (h.statusWrite hra v).respond _
  | accepted h4 ho hb hv ht => subst ht; exact ((h.latch hra hb v).accept hra hv rfl rfl).respond _
  | rejected h4 ho hb hv ht => subst ht; exact ((h.latch hra hb v).cmdError hra rfl).respond _
  | stored h4 hal ho hb ht =>
    subst ht
    exact (h.writeBytes hra (bs := wordBytes v) fun x hx =>
      inBuffer_of_input (inInput_of_word hal ho hx.1 hx.2)).respond _

/-- Settles O46: the engine's step and a bus write keep the invariant operation by operation; a hardware reset
establishes it; the other steps leave memory and registers as they are. -/
theorem stepKeepsInvariant : Obligations.StepKeepsInvariant := by
  intro s t h hstep
  cases step_shape hstep with
  | inReset hr ht hrel =>
    obtain ⟨ha, hm⟩ := h.inReset hr
    rw [ht]
    exact inv_of_atReset (ha.of_bus _ _ _ _ _) h.memCanonical h.memInBuffers (fun _ => hm)
  | engine hr hb hp => exact (performCommand_shape hp).keeps_inv h hr
  | write hr off bytes v rest hp ht =>
    subst ht; exact (hostWrite_shape off bytes v _).keeps_inv (h.consume rest) hr
  | read hr ht => rw [ht]; exact h.of_bus _ _ _ _
  | reset hr rest hp ht => subst ht; exact hardReset_inv _
  | quiet hr ht => rw [ht]; exact h.of_bus _ _ _ _

/-! ## The statements on registers, flags and buffers -/

/-- No command writes an input buffer: what a completion writes is an output buffer. -/
theorem exec_input_byteAt {i : Instr} {s t : State} (h : exec i s = .next t) {a : Nat} (ha : inIbuf a ∨ inSibuf a) :
    t.byteAt a = s.byteAt a := by
  obtain ⟨-, hx⟩ | ⟨-, p, -, hx⟩ | ⟨hl, p, -, hx⟩ := exec_cases i s
  · cases hx.symm.trans h
    exact byteAt_congr rfl rfl a
  · cases hx.symm.trans h
    rw [encode_byteAt, if_neg (by simp only [obufBase, obufSize]; omega)]
  · cases hx.symm.trans h
    rw [unpuncture_byteAt p _ _ s ((lenLegal_iff _).1 hl).2,
      if_neg (by simp only [sobufBase, softSize]; omega)]

/-- Every command ends the block idle with DONE 1, and keeps what no command writes. -/
theorem exec_kept (i : Instr) (s : State) :
    ∃ t, exec i s = .next t ∧ t.busy = false ∧ t.done = true ∧ KeptByCommand s t := by
  obtain ⟨-, hx⟩ | ⟨-, p, -, hx⟩ | ⟨-, p, -, hx⟩ := exec_cases i s
  · exact ⟨_, hx, rfl, rfl, cmdError_kept _ s⟩
  · exact ⟨_, hx, rfl, rfl, encode_kept p _ _ s⟩
  · exact ⟨_, hx, rfl, rfl, unpuncture_kept p _ _ s⟩

/-- Settles O18: by the three ways a command can end, each of which writes at most an output buffer. -/
theorem everyCommandLeavesInputsAndEndsIdle : Obligations.EveryCommandLeavesInputsAndEndsIdle := by
  intro i s
  obtain ⟨t, hx, hbusy, hdone, hkept⟩ := exec_kept i s
  exact ⟨t, hx, hbusy, hdone, fun _ ha => exec_input_byteAt hx ha, hkept⟩

/-- Settles O26: each register reads as its word, and the words are sums of their fields. -/
theorem registerReadWords : Obligations.RegisterReadWords := by
  intro s
  exact ⟨hostRead_id s, hostRead_cmd s, ⟨_, hostRead_ctrl s, ctrlWord_toNat s⟩,
    ⟨_, hostRead_status s, statusWord_toNat s⟩, ⟨_, hostRead_outcnt s, outcntWord_toNat s⟩⟩

theorem WriteShape.busy_excludes_done {off : BitVec 13} {bytes : Nat} {v : Word} {s t : State}
    (ht : WriteShape off bytes v s t) (h : s.busy = true → s.done = false) (hb : t.busy = true) : t.done = false := by
  cases ht with
  | ignored ht => rw [ht] at hb ⊢; exact h hb
  | dropped h4 hb' ho ht => subst ht; exact h hb
  | setsIe h4 ho hv ht => subst ht; exact h hb
  | resets h4 ho hv ht => subst ht; rfl
  | clears h4 ho ht =>
    subst ht
    change (s.done && !v.getLsbD 1) = false
    rw [h hb, Bool.false_and]
  | accepted h4 ho hb' hv ht => subst ht; rfl
  | rejected h4 ho hb' hv ht => subst ht; cases hb
  | stored h4 hal ho hb' ht => subst ht; exact h hb

/-- Settles O47: BUSY is set only by an acceptance, which clears DONE; DONE is set only by a completion, which clears
BUSY. -/
theorem busyExcludesDone : Obligations.BusyExcludesDone := by
  intro s t h hstep hb
  cases step_shape hstep with
  | inReset hr ht hrel => rw [ht] at hb ⊢; exact h hb
  | engine hr hb' hp =>
    obtain ⟨hidle, -⟩ := (performCommand_shape hp).idle_done
    rw [hidle] at hb; cases hb
  | write hr off bytes v rest hp ht =>
    subst ht; exact (hostWrite_shape off bytes v (consume rest s)).busy_excludes_done h hb
  | read hr ht => rw [ht] at hb ⊢; exact h hb
  | reset hr rest hp ht => subst ht; rfl
  | quiet hr ht => rw [ht] at hb ⊢; exact h hb

/-- Settles O51: of the ways a byte changes, the end of a command is out, since it changes an output buffer. -/
theorem inputBuffersChangeOnlyByHost : Obligations.InputBuffersChangeOnlyByHost := by
  intro s t a hstep ha hne
  cases step_byteChange hstep hne with
  | encodeEnded hb ht hop ha' => omega
  | unpunctureEnded hb ht hop ha' => omega
  | hostStore hb off v rest hp hal h1 h2 ha' => exact .inl ⟨hb, off, v, rest, hp, hal, h1, h2⟩
  | hardReset rest hp => exact .inr ⟨rest, hp⟩

/-- Settles O52: of the ways a byte changes, the host's store is out, since it changes an input buffer, and so is the
end of a command of the other family. -/
theorem outputBuffersChangeOnlyByTheirFamily : Obligations.OutputBuffersChangeOnlyByTheirFamily := by
  intro s t a hstep hne
  cases step_byteChange hstep hne with
  | encodeEnded hb ht hop ha' => exact ⟨fun _ => .inl ⟨hb, ht, hop⟩, fun ha => by omega⟩
  | unpunctureEnded hb ht hop ha' => exact ⟨fun ha => by omega, fun _ => .inl ⟨hb, ht, hop⟩⟩
  | hostStore hb off v rest hp hal h1 h2 ha' => exact ⟨fun ha => by omega, fun ha => by omega⟩
  | hardReset rest hp => exact ⟨fun _ => .inr ⟨rest, hp⟩, fun _ => .inr ⟨rest, hp⟩⟩

/-- A bus write that changes IE is a CTRL write. -/
theorem WriteShape.ie_changed {off : BitVec 13} {bytes : Nat} {v : Word} {s t : State}
    (ht : WriteShape off bytes v s t) (hne : t.ie ≠ s.ie) : bytes = 4 ∧ off = 0x0004#13 := by
  cases ht with
  | ignored ht => rw [ht] at hne; exact absurd rfl hne
  | dropped h4 hb ho ht => subst ht; exact absurd rfl hne
  | setsIe h4 ho hv ht => exact ⟨h4, ho⟩
  | resets h4 ho hv ht => exact ⟨h4, ho⟩
  | clears h4 ho ht => subst ht; exact absurd rfl hne
  | accepted h4 ho hb hv ht => subst ht; exact absurd rfl hne
  | rejected h4 ho hb hv ht => subst ht; exact absurd rfl hne
  | stored h4 hal ho hb ht => subst ht; exact absurd rfl hne

/-- A bus write that changes LCMD is a CMD write while idle, which latches its word, or a soft reset. -/
theorem WriteShape.lcmd_changed {off : BitVec 13} {bytes : Nat} {v : Word} {s t : State}
    (ht : WriteShape off bytes v s t) (hne : t.lcmd ≠ s.lcmd) :
    bytes = 4 ∧ ((s.busy = false ∧ off = 0x0008#13 ∧ t.lcmd = v) ∨ (off = 0x0004#13 ∧ v.getLsbD 1 = true)) := by
  cases ht with
  | ignored ht => rw [ht] at hne; exact absurd rfl hne
  | dropped h4 hb ho ht => subst ht; exact absurd rfl hne
  | setsIe h4 ho hv ht => subst ht; exact absurd rfl hne
  | resets h4 ho hv ht => exact ⟨h4, .inr ⟨ho, hv⟩⟩
  | clears h4 ho ht => subst ht; exact absurd rfl hne
  | accepted h4 ho hb hv ht => subst ht; exact ⟨h4, .inl ⟨hb, ho, rfl⟩⟩
  | rejected h4 ho hb hv ht => subst ht; exact ⟨h4, .inl ⟨hb, ho, rfl⟩⟩
  | stored h4 hal ho hb ht => subst ht; exact absurd rfl hne

/-- Settles O53: the engine's step writes neither, and of the bus writes only those to CTRL and CMD do. -/
theorem controlAndLatchChangeOnlyByHost : Obligations.ControlAndLatchChangeOnlyByHost := by
  intro s t hstep
  cases step_shape hstep with
  | inReset hr ht hrel => rw [ht]; exact ⟨fun hne => absurd rfl hne, fun hne => absurd rfl hne⟩
  | engine hr hb hp =>
    have hkept := (performCommand_shape hp).kept
    exact ⟨fun hne => absurd hkept.ie hne, fun hne => absurd hkept.lcmd hne⟩
  | write hr off bytes v rest hp ht =>
    subst ht
    have hw := hostWrite_shape off bytes v (consume rest s)
    refine ⟨fun hne => ?_, fun hne => ?_⟩
    · obtain ⟨rfl, rfl⟩ := hw.ie_changed hne
      exact .inl ⟨v, rest, hp⟩
    · obtain ⟨rfl, ⟨hb, rfl, hv⟩ | ⟨rfl, hv⟩⟩ := hw.lcmd_changed hne
      · exact .inl ⟨hb, v, rest, hp, hv⟩
      · exact .inr (.inl ⟨v, rest, hp, hv⟩)
  | read hr ht => rw [ht]; exact ⟨fun hne => absurd rfl hne, fun hne => absurd rfl hne⟩
  | reset hr rest hp ht => exact ⟨fun _ => .inr ⟨rest, hp⟩, fun _ => .inr (.inr ⟨rest, hp⟩)⟩
  | quiet hr ht => rw [ht]; exact ⟨fun hne => absurd rfl hne, fun hne => absurd rfl hne⟩

theorem and_not_eq_ite (b c : Bool) : (b && !c) = if c then false else b := by cases c <;> simp

/-- Settles O32: the write is `statusWrite`, which masks DONE and OVR. -/
theorem statusWriteClearsOnly : Obligations.StatusWriteClearsOnly := by
  intro v s
  rw [hostWrite_status, statusWrite, and_not_eq_ite, and_not_eq_ite]

/-- Settles O33: by SRST, the two branches of `ctrlWrite`. -/
theorem controlWrite : Obligations.ControlWrite := by
  refine ⟨rfl, fun v s => ⟨⟨_, hostRead_ctrl s, ctrlWord_toNat s⟩, fun hv => ?_, fun hv => ?_⟩⟩
  · rw [hostWrite_ctrl, ctrlWrite, if_neg (Bool.eq_false_iff.1 hv)]
  · rw [hostWrite_ctrl, ctrlWrite, if_pos hv]
    exact ⟨rfl, (softReset_atReset s).of_bus _ _ _ _ _⟩

end Sys2Proof.Machine

/-! Proofs for the window's family (20_memory.md): which location an aligned access of a buffer reaches, what a served
access and an error response do, how the bytes of a buffer stand in a bus word, and from them the statements on bus
accesses and on the host's part of a step. -/

namespace Sys2Proof.Machine

/-! ## The location an access reaches -/

/-- A 13-bit offset of the window given as a number. -/
theorem toNat_ofNat_window {n : Nat} (h : n < 0x2000) : (BitVec.ofNat 13 n).toNat = n := by
  rw [BitVec.toNat_ofNat]; exact Nat.mod_eq_of_lt h

section Targets

variable {off : BitVec 13} (hal : off.toNat % 4 = 0)
include hal

theorem accessTarget_of_mapped (hm : mappedOffset off.toNat) : ∃ l, accessTarget off 4 = some l :=
  Option.isSome_iff_exists.1 ((accessTarget_isSome off 4).2 ⟨rfl, hal, hm⟩)

theorem accessTarget_of_inIbuf (h : inIbuf off.toNat) :
    ∃ q, accessTarget off 4 = some (.ibuf q) ∧ off.toNat = ibufBase + 4 * q :=
  have hq : off.toNat = 0x0040 + 4 * ((off.toNat - 0x0040) / 4) := by omega
  ⟨_, accessTarget_ibuf (by omega) hq, hq⟩

theorem accessTarget_of_inObuf (h : inObuf off.toNat) :
    ∃ q, accessTarget off 4 = some (.obuf q) ∧ off.toNat = obufBase + 4 * q :=
  have hq : off.toNat = 0x0080 + 4 * ((off.toNat - 0x0080) / 4) := by omega
  ⟨_, accessTarget_obuf (by omega) hq, hq⟩

theorem accessTarget_of_inSibuf (h : inSibuf off.toNat) :
    ∃ q, accessTarget off 4 = some (.sibuf q) ∧ off.toNat = sibufBase + 4 * q :=
  have hq : off.toNat = 0x0400 + 4 * ((off.toNat - 0x0400) / 4) := by omega
  ⟨_, accessTarget_sibuf (by omega) hq, hq⟩

theorem accessTarget_of_inSobuf (h : inSobuf off.toNat) :
    ∃ q, accessTarget off 4 = some (.sobuf q) ∧ off.toNat = sobufBase + 4 * q :=
  have hq : off.toNat = 0x0C00 + 4 * ((off.toNat - 0x0C00) / 4) := by omega
  ⟨_, accessTarget_sobuf (by omega) hq, hq⟩

end Targets

/-- The accesses of R23 to R25 are those that reach no location. -/
theorem accessTarget_eq_none {off : BitVec 13} {bytes : Nat}
    (h : bytes ≠ 4 ∨ off.toNat % 4 ≠ 0 ∨ ¬ mappedOffset off.toNat) : accessTarget off bytes = none := by
  rw [← Option.not_isSome_iff_eq_none, accessTarget_isSome]
  rintro ⟨hb, hal, hm⟩
  rcases h with h | h | h
  · exact h hb
  · exact h hal
  · exact h hm

/-! ## What an access does, by its location -/

section Access

variable {off : BitVec 13} {bytes : Nat}

theorem hostWrite_of_no_target (h : accessTarget off bytes = none) (v : Word) (s : State) :
    hostWrite off bytes v s = busErrorWrite s := by
  rw [hostWrite, h]

theorem hostRead_of_no_target (h : accessTarget off bytes = none) (s : State) :
    hostRead off bytes s = busErrorRead s := by
  rw [hostRead, h]

variable {l : Location} (h : accessTarget off bytes = some l)
include h

theorem hostWrite_of_target (v : Word) (s : State) :
    hostWrite off bytes v s = { locationWrite l v s with response := some .writeOk } := by
  rw [hostWrite, h]

theorem hostRead_of_readsFree {s : State} (hf : readsFree s l = true) :
    hostRead off bytes s =
      { s with response := some (.readOk (Config.drawWord s.draws)), draws := s.draws + 1 } := by
  simp only [hostRead, h, hf, if_true]

theorem hostRead_of_defined {s : State} (hf : readsFree s l = false) :
    hostRead off bytes s = { s with response := some (.readOk (locationWord s l)) } := by
  simp only [hostRead, h, hf, Bool.false_eq_true, if_false]

/-- A served read changes the response and the count of draws alone, and its response is normal (R26). -/
theorem hostRead_of_target (s : State) :
    ∃ d n, hostRead off bytes s = { s with response := some (.readOk d), draws := n } := by
  cases hf : readsFree s l with
  | false => exact ⟨_, s.draws, hostRead_of_defined h hf⟩
  | true => exact ⟨_, _, hostRead_of_readsFree h hf⟩

end Access

/-- Only an output buffer while busy has no defined data (R34). -/
theorem readsFree_of_idle {s : State} (hb : s.busy = false) (l : Location) : readsFree s l = false := by
  cases l with
  | obuf q => exact hb
  | sobuf q => exact hb
  | id => rfl
  | ctrl => rfl
  | cmd => rfl
  | status => rfl
  | outcnt => rfl
  | ibuf q => rfl
  | sibuf q => rfl

/-! ## Reads of the buffers -/

section BufferReads

variable {off : BitVec 13} (hal : off.toNat % 4 = 0)
include hal

/-- An input buffer is read as it stands, busy or not. -/
theorem hostRead_input (ha : inIbuf off.toNat ∨ inSibuf off.toNat) (s : State) :
    hostRead off 4 s = { s with response := some (.readOk (s.wordAt off.toNat)) } := by
  rcases ha with ha | ha
  · obtain ⟨q, hl, hq⟩ := accessTarget_of_inIbuf hal ha
    rw [hostRead_of_defined hl rfl, hq]; rfl
  · obtain ⟨q, hl, hq⟩ := accessTarget_of_inSibuf hal ha
    rw [hostRead_of_defined hl rfl, hq]; rfl

/-- An output buffer is read as it stands while idle. -/
theorem hostRead_output_idle (ha : inObuf off.toNat ∨ inSobuf off.toNat) {s : State} (hb : s.busy = false) :
    hostRead off 4 s = { s with response := some (.readOk (s.wordAt off.toNat)) } := by
  rcases ha with ha | ha
  · obtain ⟨q, hl, hq⟩ := accessTarget_of_inObuf hal ha
    rw [hostRead_of_defined hl (readsFree_of_idle hb _), hq]; rfl
  · obtain ⟨q, hl, hq⟩ := accessTarget_of_inSobuf hal ha
    rw [hostRead_of_defined hl (readsFree_of_idle hb _), hq]; rfl

/-- An output buffer is read as a drawn word while busy. -/
theorem hostRead_output_busy (ha : inObuf off.toNat ∨ inSobuf off.toNat) {s : State} (hb : s.busy = true) :
    hostRead off 4 s =
      { s with response := some (.readOk (Config.drawWord s.draws)), draws := s.draws + 1 } := by
  rcases ha with ha | ha
  · obtain ⟨q, hl, -⟩ := accessTarget_of_inObuf hal ha
    exact hostRead_of_readsFree hl hb
  · obtain ⟨q, hl, -⟩ := accessTarget_of_inSobuf hal ha
    exact hostRead_of_readsFree hl hb

end BufferReads

/-! ## Writes of the buffers -/

section BufferWrites

variable {off : BitVec 13} (hal : off.toNat % 4 = 0)
include hal

theorem hostWrite_output (ha : inObuf off.toNat ∨ inSobuf off.toNat) (v : Word) (s : State) :
    hostWrite off 4 v s = { s with response := some .writeOk } := by
  rcases ha with ha | ha
  · obtain ⟨q, hl, -⟩ := accessTarget_of_inObuf hal ha
    exact hostWrite_of_target hl v s
  · obtain ⟨q, hl, -⟩ := accessTarget_of_inSobuf hal ha
    exact hostWrite_of_target hl v s

variable (ha : inIbuf off.toNat ∨ inSibuf off.toNat) (v : Word)
include ha

theorem hostWrite_input (s : State) :
    hostWrite off 4 v s = { inputWrite off.toNat v s with response := some .writeOk } := by
  rcases ha with ha | ha
  · obtain ⟨q, hl, hq⟩ := accessTarget_of_inIbuf hal ha
    rw [hostWrite_of_target hl, hq]; rfl
  · obtain ⟨q, hl, hq⟩ := accessTarget_of_inSibuf hal ha
    rw [hostWrite_of_target hl, hq]; rfl

theorem hostWrite_input_busy {s : State} (hb : s.busy = true) :
    hostWrite off 4 v s = { s with ovr := true, response := some .writeOk } := by
  rw [hostWrite_input hal ha, inputWrite, if_pos hb, overrun]

theorem hostWrite_input_idle {s : State} (hb : s.busy = false) :
    hostWrite off 4 v s = { s.writeBytes off.toNat (wordBytes v) with response := some .writeOk } := by
  rw [hostWrite_input hal ha, inputWrite, if_neg (Bool.eq_false_iff.1 hb)]

end BufferWrites

theorem hostWrite_cmd_busy (v : Word) {s : State} (hb : s.busy = true) :
    hostWrite 0x0008#13 4 v s = { s with ovr := true, response := some .writeOk } := by
  change { cmdWrite v s with response := some .writeOk } = _
  rw [cmdWrite, if_pos hb, overrun]

/-! ## Bytes and bus words -/

theorem wordBytes_getD (v : Word) {j : Nat} (hj : j < 4) : (wordBytes v).getD j 0#8 = v.extractLsb' (8 * j) 8 := by
  obtain rfl | rfl | rfl | rfl : j = 0 ∨ j = 1 ∨ j = 2 ∨ j = 3 := by omega
  all_goals rfl

theorem append_byte_getLsbD {n : Nat} (x : BitVec n) (y : Byte) {r : Nat} (hr : r < 8) :
    (x ++ y).getLsbD r = y.getLsbD r := by
  rw [BitVec.getLsbD_append, if_pos hr]

theorem append_byte_getLsbD_add {n : Nat} (x : BitVec n) (y : Byte) (i : Nat) :
    (x ++ y).getLsbD (8 + i) = x.getLsbD i := by
  rw [BitVec.getLsbD_append, if_neg (by omega), Nat.add_sub_cancel_left]

/-- Bit `r` of byte lane `j`, of four bytes put together. -/
theorem append_lanes_getLsbD (b : Nat → Byte) {j r : Nat} (hj : j < 4) (hr : r < 8) :
    (b 3 ++ b 2 ++ b 1 ++ b 0).getLsbD (8 * j + r) = (b j).getLsbD r := by
  obtain rfl | rfl | rfl | rfl : j = 0 ∨ j = 1 ∨ j = 2 ∨ j = 3 := by omega
  · rw [Nat.mul_zero, Nat.zero_add, append_byte_getLsbD _ _ hr]
  · rw [append_byte_getLsbD_add, append_byte_getLsbD _ _ hr]
  · rw [show 8 * 2 + r = 8 + (8 + r) by omega, append_byte_getLsbD_add, append_byte_getLsbD_add,
      append_byte_getLsbD _ _ hr]
  · rw [show 8 * 3 + r = 8 + (8 + (8 + r)) by omega, append_byte_getLsbD_add, append_byte_getLsbD_add,
      append_byte_getLsbD_add]

/-- Bit `r` of lane `j` of a bus word is that bit of byte `j` of the word (R27). -/
theorem wordAt_getLsbD (s : State) (a : Nat) {j r : Nat} (hj : j < 4) (hr : r < 8) :
    (s.wordAt a).getLsbD (8 * j + r) = (s.byteAt (a + j)).getLsbD r :=
  append_lanes_getLsbD (fun i => s.byteAt (a + i)) hj hr

/-- A bus word is two 16-bit entries, the one at the lower offset low (R29). -/
theorem wordAt_eq_softAt_append (s : State) (a : Nat) : s.wordAt a = s.softAt (a + 2) ++ s.softAt a :=
  BitVec.append_assoc (x₁ := s.byteAt (a + 3) ++ s.byteAt (a + 2))

/-- An input-buffer word written while idle: its four lanes, its frame in memory, and the registers it leaves. -/
theorem hostWrite_input_stored {off : BitVec 13} (hal : off.toNat % 4 = 0)
    (ha : inIbuf off.toNat ∨ inSibuf off.toNat) (v : Word) {s : State} (hb : s.busy = false) :
    (∀ j, j < 4 → (hostWrite off 4 v s).byteAt (off.toNat + j) = v.extractLsb' (8 * j) 8) ∧
      SameBytesOutside off.toNat 4 s (hostWrite off 4 v s) ∧ SameRegisters s (hostWrite off 4 v s) := by
  have hw := hostWrite_input_idle hal ha v hb
  have hm : (hostWrite off 4 v s).mem = s.mem.write off.toNat (wordBytes v) := congrArg State.mem hw
  have he : (hostWrite off 4 v s).epoch = s.epoch := (congrArg State.epoch hw).trans rfl
  refine ⟨fun j hj => ?_, fun x hx => byteAt_of_write_outside hm he hx,
    by rw [hw]; exact ⟨rfl, rfl, rfl, rfl, rfl, rfl, rfl, rfl, rfl, rfl, rfl⟩⟩
  rw [byteAt_of_write hm he, if_pos (by rw [wordBytes_length]; omega), Nat.add_sub_cancel_left,
    wordBytes_getD v hj]

/-- Two adjacent lanes of a bus word put together. -/
theorem extract_lanes (v : Word) (k : Nat) :
    v.extractLsb' (k + 8) 8 ++ v.extractLsb' k 8 = v.extractLsb' k 16 := by
  apply BitVec.eq_of_getLsbD_eq
  intro i hi
  rw [BitVec.getLsbD_append]
  by_cases h : i < 8
  · simp [h, hi]
  · simp [h, hi, show i - 8 < 8 by omega, show k + 8 + (i - 8) = k + i by omega]

/-! ## A write done twice -/

/-- Writing the same bytes again changes nothing: the cells below and above them are kept, and they are written anew. -/
theorem write_write_same (m : Memory) (a : Nat) (bs : List Byte) : (m.write a bs).write a bs = m.write a bs := by
  have hcells : ∀ c ∈ cellsFrom a bs, ¬ c.1 < a ∧ ¬ a + bs.length ≤ c.1 := fun c hc => by
    have := mem_cellsFrom hc; omega
  have hlow : (cellsFrom a bs).filter (fun c => decide (c.1 < a)) = [] :=
    List.filter_eq_nil_iff.2 fun c hc => by simpa using (hcells c hc).1
  have hhigh : (cellsFrom a bs).filter (fun c => decide (a + bs.length ≤ c.1)) = [] :=
    List.filter_eq_nil_iff.2 fun c hc => by simpa using (hcells c hc).2
  have hlh : ∀ c : Host.Cell, (decide (c.1 < a) && decide (a + bs.length ≤ c.1)) = false := fun c => by
    rw [← Bool.decide_and]; exact decide_eq_false (by omega)
  have hhl : ∀ c : Host.Cell, (decide (a + bs.length ≤ c.1) && decide (c.1 < a)) = false := fun c => by
    rw [Bool.and_comm, hlh]
  simp only [Memory.write, List.filter_append, List.filter_filter, hlow, hhigh, Bool.and_self, hlh, hhl,
    List.filter_false, List.append_nil, List.nil_append]

theorem statusWrite_statusWrite (v : Word) (s : State) : statusWrite v (statusWrite v s) = statusWrite v s := by
  simp [statusWrite]

theorem ctrlWrite_of_not_srst {v : Word} (hv : v.getLsbD 1 = false) (s : State) :
    ctrlWrite v s = { s with ie := v.getLsbD 0 } := by
  rw [ctrlWrite, if_neg (Bool.eq_false_iff.1 hv)]

/-- An input-buffer write done twice, at any offset of the buffers: misaligned, dropped or stored. -/
theorem hostWrite_input_twice {off : BitVec 13} (ha : inIbuf off.toNat ∨ inSibuf off.toNat) (v : Word) (s : State) :
    hostWrite off 4 v (hostWrite off 4 v s) = hostWrite off 4 v s := by
  by_cases hal : off.toNat % 4 = 0
  · cases hb : s.busy with
    | false =>
      rw [hostWrite_input_idle hal ha v hb, hostWrite_input_idle hal ha v (by exact hb)]
      simp only [State.writeBytes, write_write_same]
    | true =>
      rw [hostWrite_input_busy hal ha v hb, hostWrite_input_busy hal ha v (by exact hb)]
  · have hl : accessTarget off 4 = none := accessTarget_eq_none (.inr (.inl hal))
    rw [hostWrite_of_no_target hl, hostWrite_of_no_target hl]; rfl

/-! ## The host's part of a step -/

theorem engineDue_of_hostMayMove {s : State} (h : HostMayMove s) (e : HostEvent) : engineDue e s = false := by
  have hlat : (s.busy && s.latencyLeft == 0) = false := by
    rw [Bool.and_eq_false_imp]
    intro hb
    simpa using h.2 hb
  cases e with
  | waitIrq => rfl
  | write off bytes v => exact hlat
  | read off bytes => exact hlat
  | poll off mask value => exact hlat
  | assertReset => exact hlat
  | releaseReset => exact hlat

/-- When the host may move, the oldest event is the step (R32). -/
theorem step_of_hostMayMove {s : State} (h : HostMayMove s) {e : HostEvent} {rest : List HostEvent}
    (hp : s.pending = e :: rest) : step s = hostMove e rest s := by
  simp only [step, nextEvent, h.1, hp, engineDue_of_hostMayMove h, Bool.false_eq_true, if_false]

/-- The engine's step writes no input buffer. -/
theorem performCommand_input_byteAt {s t : State} (h : performCommand s = .next t) {a : Nat}
    (ha : inIbuf a ∨ inSibuf a) : t.byteAt a = s.byteAt a := by
  obtain ⟨i, -, hp⟩ | ⟨e, -, hp⟩ := performCommand_cases s
  · exact exec_input_byteAt (hp.symm.trans h) ha
  · cases hp.symm.trans h; exact byteAt_congr rfl rfl a

/-- Of the bus writes to a busy block only a soft reset, which leaves BUSY and DONE 0, changes LCMD or memory. -/
theorem WriteShape.inputs_kept_of_busy {off : BitVec 13} {bytes : Nat} {v : Word} {s t : State}
    (ht : WriteShape off bytes v s t) (hb : s.busy = true) (h : t.busy = true ∨ t.done = true) :
    t.lcmd = s.lcmd ∧ t.mem = s.mem ∧ t.epoch = s.epoch := by
  cases ht with
  | ignored ht => rw [ht]; exact ⟨rfl, rfl, rfl⟩
  | dropped h4 hb' ho ht => subst ht; exact ⟨rfl, rfl, rfl⟩
  | setsIe h4 ho hv ht => subst ht; exact ⟨rfl, rfl, rfl⟩
  | resets h4 ho hv ht => subst ht; rcases h with h | h <;> cases h
  | clears h4 ho ht => subst ht; exact ⟨rfl, rfl, rfl⟩
  | accepted h4 ho hb' hv ht => rw [hb] at hb'; cases hb'
  | rejected h4 ho hb' hv ht => rw [hb] at hb'; cases hb'
  | stored h4 hal ho hb' ht => rw [hb] at hb'; cases hb'

/-! ## The statements on the window -/

/-- Settles O21: an input write and a CMD write while busy are `overrun`; the registers of a CTRL write are those of a
soft reset or IE alone, and a STATUS write masks DONE and OVR. -/
theorem inputWritesWhileBusyAreDropped : Obligations.InputWritesWhileBusyAreDropped := by
  refine ⟨fun off v s hb hal ho => ?_, fun v s => ⟨fun hv => ?_, fun hv => ?_, fun hv => ?_, fun hv => ?_⟩⟩
  · rcases ho with ho | ho | rfl
    · exact hostWrite_input_busy hal (.inl ho) v hb
    · exact hostWrite_input_busy hal (.inr ho) v hb
    · exact hostWrite_cmd_busy v hb
  · rw [hostWrite_ctrl, ctrlWrite_of_not_srst hv]
  · rw [hostWrite_ctrl, ctrlWrite, if_pos hv]
    exact (softReset_atReset s).of_bus _ _ _ _ _
  · simp [hostWrite_status, hv]
  · simp [hostWrite_status, hv]

/-- Settles O23: the stored word's lanes are the four bytes of IBUF from `4q` on, and the read is the word there. -/
theorem ibufWordPacking : Obligations.IbufWordPacking := by
  intro q v s hq
  have hoff : (BitVec.ofNat 13 (0x0040 + 4 * q)).toNat = 0x0040 + 4 * q := toNat_ofNat_window (by omega)
  have hal : (BitVec.ofNat 13 (0x0040 + 4 * q)).toNat % 4 = 0 := by omega
  have ha : inIbuf (BitVec.ofNat 13 (0x0040 + 4 * q)).toNat := by omega
  refine ⟨fun hb => ?_, ?_⟩
  · obtain ⟨hlanes, houtside, hregs⟩ := hostWrite_input_stored hal (.inl ha) v hb
    rw [hoff] at hlanes houtside
    refine ⟨fun j hj => ?_, houtside, hregs⟩
    rw [← hlanes j hj, State.ibuf, ibufBase, Nat.add_assoc]
  · rw [hostRead_input hal (.inl ha), hoff]
    rfl

/-- Settles O24: code bit `k` is bit `7 - k mod 8` of lane `k/8 mod 4` of its word. -/
theorem obufWordPacking : Obligations.ObufWordPacking := by
  intro k s hk hb
  have hoff : (BitVec.ofNat 13 (0x0080 + 4 * (k / 32))).toNat = 0x0080 + 4 * (k / 32) :=
    toNat_ofNat_window (by omega)
  have hread := hostRead_output_idle (off := BitVec.ofNat 13 (0x0080 + 4 * (k / 32))) (by omega)
    (.inl (by omega)) hb
  rw [hoff] at hread
  refine ⟨_, by rw [hread], ?_⟩
  have hbyte : 0x0080 + 4 * (k / 32) + k / 8 % 4 = 0x0080 + k / 8 := by omega
  rw [show 8 * (k / 8 % 4) + 7 - k % 8 = 8 * (k / 8 % 4) + (7 - k % 8) by omega,
    wordAt_getLsbD s _ (by omega) (by omega), hbyte]
  rfl

/-- Settles O25: a bus word is two entries, each two of its lanes; a SOBUF write reaches a read-only location. -/
theorem softBufferWordPacking : Obligations.SoftBufferWordPacking := by
  intro q v s hq
  have hin : (BitVec.ofNat 13 (0x0400 + 4 * q)).toNat = 0x0400 + 4 * q := toNat_ofNat_window (by omega)
  have hout : (BitVec.ofNat 13 (0x0C00 + 4 * q)).toNat = 0x0C00 + 4 * q := toNat_ofNat_window (by omega)
  have halIn : (BitVec.ofNat 13 (0x0400 + 4 * q)).toNat % 4 = 0 := by omega
  have halOut : (BitVec.ofNat 13 (0x0C00 + 4 * q)).toNat % 4 = 0 := by omega
  have haIn : inSibuf (BitVec.ofNat 13 (0x0400 + 4 * q)).toNat := by omega
  have haOut : inSobuf (BitVec.ofNat 13 (0x0C00 + 4 * q)).toNat := by omega
  have hodd : ∀ b, b + 2 * (2 * q + 1) = b + 4 * q + 2 := by omega
  have heven : ∀ b, b + 2 * (2 * q) = b + 4 * q := by omega
  refine ⟨fun hb => ?_, ?_, hostWrite_output halOut (.inr haOut) v s⟩
  · obtain ⟨hlanes, houtside, hregs⟩ := hostWrite_input_stored halIn (.inr haIn) v hb
    rw [hin] at hlanes houtside
    refine ⟨?_, ?_, houtside, hregs, ?_⟩
    · rw [State.sibuf, heven, State.softAt, sibufBase, hlanes 1 (by omega),
        show State.byteAt _ (0x0400 + 4 * q) = _ from hlanes 0 (by omega)]
      exact extract_lanes v 0
    · rw [State.sibuf, hodd, State.softAt, sibufBase, hlanes 2 (by omega), hlanes 3 (by omega)]
      exact extract_lanes v 16
    · rw [hostRead_output_idle halOut (.inr haOut) hb, hout, wordAt_eq_softAt_append, State.sobuf, State.sobuf, hodd,
        heven]
      rfl
  · rw [hostRead_input halIn (.inr haIn), hin, wordAt_eq_softAt_append, State.sibuf, State.sibuf, hodd, heven]
    rfl

/-- Settles O27: such an access reaches no location. -/
theorem busErrorHasNoEffect : Obligations.BusErrorHasNoEffect := by
  intro off bytes v s h
  have hl := accessTarget_eq_none h
  exact ⟨hostWrite_of_no_target hl v s, _, hostRead_of_no_target hl s⟩

/-- Settles O28: such an access reaches a location, and every location answers normally. -/
theorem mappedAccessesAreServed : Obligations.MappedAccessesAreServed := by
  intro off v s hal hm
  obtain ⟨l, hl⟩ := accessTarget_of_mapped hal hm
  obtain ⟨d, n, hread⟩ := hostRead_of_target hl s
  exact ⟨by rw [hostWrite_of_target hl], d, by rw [hread]⟩

/-- Settles O29: by location; STATUS and CTRL writes look at the two bits named and no other. -/
theorem readOnlyWritesAreIgnored : Obligations.ReadOnlyWritesAreIgnored := by
  refine ⟨fun off v s hal ho => ?_, fun v v' s h1 h2 => ?_, fun v v' s h0 h1 => ?_, fun off s hal hm => ?_⟩
  · rcases ho with rfl | rfl | ho
    · rfl
    · rfl
    · exact hostWrite_output hal ho v s
  · rw [hostWrite_status, hostWrite_status, statusWrite, statusWrite, h1, h2]
  · rw [hostWrite_ctrl, hostWrite_ctrl, ctrlWrite, ctrlWrite, h0, h1]
  · obtain ⟨l, hl⟩ := accessTarget_of_mapped hal hm
    exact hostRead_of_target hl s

/-- Settles O30: by the kind of buffer and, for an output buffer, the engine's state. -/
theorem bufferReadsByEngineState : Obligations.BufferReadsByEngineState := by
  intro off s hal
  refine ⟨fun hb ha => ⟨_, hostRead_output_busy hal ha hb⟩, fun hb ha => ?_, fun ha => hostRead_input hal ha s⟩
  rcases ha with ha | ha | ha | ha
  · exact hostRead_input hal (.inl ha) s
  · exact hostRead_output_idle hal (.inl ha) hb
  · exact hostRead_input hal (.inr ha) s
  · exact hostRead_output_idle hal (.inr ha) hb

/-- Settles O31: an input write by `hostWrite_input_twice`; the two register writes by their one effect. -/
theorem repeatedWritesAreIdempotent : Obligations.RepeatedWritesAreIdempotent := by
  intro off v s ho
  rcases ho with ho | ho | rfl | ⟨rfl, hv⟩
  · exact hostWrite_input_twice (.inl ho) v s
  · exact hostWrite_input_twice (.inr ho) v s
  · change { statusWrite v (statusWrite v s) with response := some .writeOk } = _
    rw [statusWrite_statusWrite, hostWrite_status]
  · rw [hostWrite_ctrl, hostWrite_ctrl, ctrlWrite_of_not_srst hv, ctrlWrite_of_not_srst hv]

/-- Settles O49: the engine writes output buffers only; a bus write to a busy block and a hardware reset change the
inputs only where they leave BUSY and DONE 0; the other steps change no register and no byte. -/
theorem inputsAreStableWhileBusy : Obligations.InputsAreStableWhileBusy := by
  intro s t hstep hb _ hra hend
  cases step_shape hstep with
  | inReset hr ht hrel => rw [hra] at hr; cases hr
  | engine hr hb' hp =>
    exact ⟨(performCommand_shape hp).kept.lcmd, fun a ha => performCommand_input_byteAt hp ha⟩
  | write hr off bytes v rest hp ht =>
    subst ht
    obtain ⟨hlcmd, hmem, hepoch⟩ :=
      (hostWrite_shape off bytes v (consume rest s)).inputs_kept_of_busy hb hend
    exact ⟨hlcmd, fun a _ => byteAt_congr hmem hepoch a⟩
  | read hr ht => rw [ht]; exact ⟨rfl, fun a _ => byteAt_congr rfl rfl a⟩
  | reset hr rest hp ht => subst ht; rcases hend with h | h <;> cases h
  | quiet hr ht => rw [ht]; exact ⟨rfl, fun a _ => byteAt_congr rfl rfl a⟩

/-- Settles O42: no completion is due, so the step is the host's oldest event. -/
theorem stepPerformsHostAccess : Obligations.StepPerformsHostAccess := by
  intro s off bytes rest h
  exact ⟨fun v hp => step_of_hostMayMove h hp, fun hp => step_of_hostMayMove h hp⟩

end Sys2Proof.Machine

/-! Proofs for the encoding's family (30_encoding.md): the fields of a command word by number, the words that name a
command, decoding and encoding as inverses, and from them the statements on words; then the issue of a command, a step
of a busy block, and the statements on commands, POLL and WAITIRQ. -/

namespace Sys2Proof.Machine

/-! ## The fields of a word by number (R38) -/

theorem opField_toNat (w : Word) : (opField w).toNat = w.toNat % 4 := by
  rw [opField, BitVec.extractLsb'_toNat]; rfl

theorem lenField_toNat (w : Word) : (lenField w).toNat = w.toNat / 2 ^ 8 % 2 ^ 8 := by
  rw [lenField, BitVec.extractLsb'_toNat, Nat.shiftRight_eq_div_pow]

theorem fbField_toNat (w : Word) : (fbField w).toNat = w.toNat / 2 ^ 4 % 2 ^ 3 := by
  rw [fbField, BitVec.extractLsb'_toNat, Nat.shiftRight_eq_div_pow]

theorem patField_toNat (w : Word) : (patField w).toNat = w.toNat / 2 ^ 2 % 2 ^ 2 := by
  rw [patField, BitVec.extractLsb'_toNat, Nat.shiftRight_eq_div_pow]

theorem opField_eq_iff (w : Word) (n : BitVec 2) : opField w = n ↔ w.toNat % 4 = n.toNat := by
  rw [← BitVec.toNat_inj, opField_toNat]

theorem reservedSet_eq_false_iff (w : Word) :
    reservedSet w = false ↔ w.toNat / 2 ^ 7 % 2 = 0 ∧ w.toNat / 2 ^ 16 = 0 := by
  have hw := w.isLt
  have hbit : w.getLsbD 7 = false ↔ w.toNat / 2 ^ 7 % 2 = 0 := by
    rw [BitVec.getLsbD, Nat.testBit_eq_decide_div_mod_eq, decide_eq_false_iff_not]; omega
  have hhigh : (w.extractLsb' 16 16 != 0#16) = false ↔ w.toNat / 2 ^ 16 = 0 := by
    rw [bne_eq_false_iff_eq, ← BitVec.toNat_inj, BitVec.extractLsb'_toNat, Nat.shiftRight_eq_div_pow,
      BitVec.toNat_ofNat]
    omega
  rw [reservedSet, Bool.or_eq_false_iff, hbit, hhigh]

/-! ## The words that name a command (R44) -/

/-- The words that name a command, by number: bit 7 and bits 31:16 zero, OP 0 or 1 (R44). -/
def NamesCommand (w : Word) : Prop := w.toNat / 2 ^ 7 % 2 = 0 ∧ w.toNat / 2 ^ 16 = 0 ∧ w.toNat % 4 < 2

/-- The command of an OP and a pattern: ENCODE for OP = 0, UNPUNCTURE for OP = 1 (R39, R40). -/
def commandOf (op : Nat) (p : Pattern) (len : BitVec 8) (fb : BitVec 3) : Instr :=
  if op = 0 then encOf p len fb else unpOf p len fb

theorem patNumber_lt (p : Pattern) : patNumber p < 4 := by
  cases p <;> decide

theorem exists_patNumber_eq {n : Nat} (h : n < 4) : ∃ p, patNumber p = n := by
  obtain rfl | rfl | rfl | rfl : n = 0 ∨ n = 1 ∨ n = 2 ∨ n = 3 := by omega
  · exact ⟨.lsf, rfl⟩
  · exact ⟨.pkt, rfl⟩
  · exact ⟨.str, rfl⟩
  · exact ⟨.raw, rfl⟩

/-- Every command has an OP, a pattern and its two operands. -/
theorem exists_eq_commandOf (i : Instr) : ∃ op p len fb, op < 2 ∧ i = commandOf op p len fb := by
  obtain ⟨p, l, f, rfl⟩ | ⟨p, l, f, rfl⟩ := instr_cases i
  · exact ⟨0, p, l, f, by omega, rfl⟩
  · exact ⟨1, p, l, f, by omega, rfl⟩

@[simp] theorem commandOf_len (op : Nat) (p : Pattern) (len : BitVec 8) (fb : BitVec 3) :
    (commandOf op p len fb).len = len := by
  unfold commandOf; split <;> simp

@[simp] theorem commandOf_fb (op : Nat) (p : Pattern) (len : BitVec 8) (fb : BitVec 3) :
    (commandOf op p len fb).fb = fb := by
  unfold commandOf; split <;> simp

/-- The row's match is PAT and OP in place (R44). -/
theorem commandOf_rowMatch_toNat {op : Nat} (hop : op < 2) (p : Pattern) (len : BitVec 8) (fb : BitVec 3) :
    (commandOf op p len fb).rowMatch.toNat = 4 * patNumber p + op := by
  obtain rfl | rfl : op = 0 ∨ op = 1 := by omega
  · cases p <;> rfl
  · cases p <;> rfl

theorem rowMatch_toNat_lt (i : Instr) : i.rowMatch.toNat < 2 ^ 4 := by
  obtain ⟨op, p, l, f, hop, rfl⟩ := exists_eq_commandOf i
  have := patNumber_lt p
  rw [commandOf_rowMatch_toNat hop]
  omega

/-! ## Encoding -/

/-- The command word as a sum: its three parts share no bit (R44). -/
theorem encode_toNat (i : Instr) :
    (encode i).toNat = 2 ^ 8 * i.len.toNat + 2 ^ 4 * i.fb.toNat + i.rowMatch.toNat := by
  have hl := i.len.isLt
  have hf := i.fb.isLt
  have hlen : (i.len.zeroExtend 32 <<< 8).toNat = i.len.toNat <<< 8 := by
    rw [BitVec.toNat_shiftLeft, BitVec.toNat_setWidth, Nat.shiftLeft_eq, Nat.shiftLeft_eq]; omega
  have hfb : (i.fb.zeroExtend 32 <<< 4).toNat = i.fb.toNat <<< 4 := by
    rw [BitVec.toNat_shiftLeft, BitVec.toNat_setWidth, Nat.shiftLeft_eq, Nat.shiftLeft_eq]; omega
  have hoperands : i.len.toNat <<< 8 ||| i.fb.toNat <<< 4 = (2 ^ 4 * i.len.toNat + i.fb.toNat) <<< 4 := by
    rw [← Nat.shiftLeft_add_eq_or_of_lt (by rw [Nat.shiftLeft_eq]; omega), Nat.shiftLeft_eq, Nat.shiftLeft_eq,
      Nat.shiftLeft_eq]
    omega
  rw [encode, BitVec.toNat_or, BitVec.toNat_or, hlen, hfb, hoperands,
    ← Nat.shiftLeft_add_eq_or_of_lt (rowMatch_toNat_lt i), Nat.shiftLeft_eq]
  omega

theorem encode_commandOf_toNat {op : Nat} (hop : op < 2) (p : Pattern) (len : BitVec 8) (fb : BitVec 3) :
    (encode (commandOf op p len fb)).toNat =
      2 ^ 8 * len.toNat + 2 ^ 4 * fb.toNat + 2 ^ 2 * patNumber p + op := by
  rw [encode_toNat, commandOf_len, commandOf_fb, commandOf_rowMatch_toNat hop]
  omega

/-- The encoding meets its row under the mask, and LEN and FB stand in their fields. -/
theorem encode_tableRow (i : Instr) : Laws.TableRow.Statement i := by
  cases i with
  | encLsf l f => exact Laws.TableRow.encLsf l f
  | encPkt l f => exact Laws.TableRow.encPkt l f
  | encStr l f => exact Laws.TableRow.encStr l f
  | encRaw l f => exact Laws.TableRow.encRaw l f
  | unpLsf l f => exact Laws.TableRow.unpLsf l f
  | unpPkt l f => exact Laws.TableRow.unpPkt l f
  | unpStr l f => exact Laws.TableRow.unpStr l f
  | unpRaw l f => exact Laws.TableRow.unpRaw l f

theorem encode_and_rowMask (i : Instr) : encode i &&& rowMask = i.rowMatch := (encode_tableRow i).1
@[simp] theorem lenField_encode (i : Instr) : lenField (encode i) = i.len := (encode_tableRow i).2.1
@[simp] theorem fbField_encode (i : Instr) : fbField (encode i) = i.fb := (encode_tableRow i).2.2

theorem namesCommand_encode (i : Instr) : NamesCommand (encode i) := by
  obtain ⟨op, p, l, f, hop, rfl⟩ := exists_eq_commandOf i
  have hnum := encode_commandOf_toNat hop p l f
  have hp := patNumber_lt p
  have hl := l.isLt
  have hf := f.isLt
  refine ⟨?_, ?_, ?_⟩ <;> omega

/-! ## Decoding -/

theorem encCommand_of_pat {w : Word} {p : Pattern} (h : patField w = BitVec.ofNat 2 (patNumber p)) :
    encCommand w = encOf p (lenField w) (fbField w) := by
  rw [encCommand, h]
  cases p <;> rfl

theorem unpCommand_of_pat {w : Word} {p : Pattern} (h : patField w = BitVec.ofNat 2 (patNumber p)) :
    unpCommand w = unpOf p (lenField w) (fbField w) := by
  rw [unpCommand, h]
  cases p <;> rfl

/-- A word of R44's condition decodes to the command of its OP and PAT, with its LEN and FB. -/
theorem decode_of_namesCommand {w : Word} (h : NamesCommand w) {p : Pattern}
    (hp : patNumber p = w.toNat / 2 ^ 2 % 2 ^ 2) :
    decode w = .ok (commandOf (w.toNat % 4) p (lenField w) (fbField w)) := by
  obtain ⟨h7, h16, hop⟩ := h
  have hres : ¬ reservedSet w = true := by
    rw [Bool.not_eq_true]; exact (reservedSet_eq_false_iff w).2 ⟨h7, h16⟩
  have hpat : patField w = BitVec.ofNat 2 (patNumber p) := by
    rw [hp, ← patField_toNat, BitVec.ofNat_toNat, BitVec.setWidth_eq]
  rw [decode, if_neg hres, encCommand_of_pat hpat, unpCommand_of_pat hpat, commandOf]
  obtain h0 | h1 : w.toNat % 4 = 0 ∨ w.toNat % 4 = 1 := by omega
  · rw [if_pos ((opField_eq_iff w 0#2).2 h0), if_pos h0]
  · have hne : ¬ opField w = 0#2 := fun h => by
      rw [opField_eq_iff, h1] at h; cases h
    rw [if_neg hne, if_pos ((opField_eq_iff w 1#2).2 h1), if_neg (by omega)]

theorem namesCommand_of_decode {w : Word} {i : Instr} (h : decode w = .ok i) : NamesCommand w := by
  obtain ⟨hres, hop⟩ := decode_ok_cases h
  obtain ⟨h7, h16⟩ := (reservedSet_eq_false_iff w).1 hres
  refine ⟨h7, h16, ?_⟩
  rcases hop with ⟨hop, -⟩ | ⟨hop, -⟩
  · rw [(opField_eq_iff w _).1 hop]; decide
  · rw [(opField_eq_iff w _).1 hop]; decide

/-- Settles O2: the encoding names a command, and its four fields are OP, PAT and the operands it was made of. -/
theorem decodeInvertsEncode : Obligations.DecodeInvertsEncode := by
  intro i
  have hnames := namesCommand_encode i
  have hlen := lenField_encode i
  have hfb := fbField_encode i
  obtain ⟨op, p, l, f, hop, rfl⟩ := exists_eq_commandOf i
  have hnum := encode_commandOf_toNat hop p l f
  have hp := patNumber_lt p
  have hpat : patNumber p = (encode (commandOf op p l f)).toNat / 2 ^ 2 % 2 ^ 2 := by omega
  have hop' : (encode (commandOf op p l f)).toNat % 4 = op := by omega
  rw [decode_of_namesCommand hnames hpat, hlen, hfb, hop', commandOf_len, commandOf_fb]

/-- A word of R44's condition is the encoding of the command of its fields. -/
theorem encode_commandOf_fields {w : Word} (h : NamesCommand w) {p : Pattern}
    (hp : patNumber p = w.toNat / 2 ^ 2 % 2 ^ 2) :
    encode (commandOf (w.toNat % 4) p (lenField w) (fbField w)) = w := by
  obtain ⟨h7, h16, hop⟩ := h
  apply BitVec.eq_of_toNat_eq
  rw [encode_commandOf_toNat hop, hp, lenField_toNat, fbField_toNat]
  omega

/-- Decoding and encoding are inverses: a word names a command exactly when it is that command's encoding. -/
theorem decode_eq_ok_iff {w : Word} {i : Instr} : decode w = .ok i ↔ encode i = w := by
  constructor
  · intro h
    have hnames := namesCommand_of_decode h
    obtain ⟨p, hp⟩ := exists_patNumber_eq (n := w.toNat / 2 ^ 2 % 2 ^ 2) (by omega)
    obtain rfl : _ = i := Except.ok.inj ((decode_of_namesCommand hnames hp).symm.trans h)
    exact encode_commandOf_fields hnames hp
  · rintro rfl
    exact decodeInvertsEncode i

/-- A word outside R44's condition names no command. -/
theorem decode_of_not_namesCommand {w : Word} (h : ¬ NamesCommand w) : decode w = .error (validate w) := by
  cases hd : decode w with
  | ok i => exact absurd (namesCommand_of_decode hd) h
  | error e => rw [validate_of_decode_error hd]

theorem decode_ne_error_ok (w : Word) : decode w ≠ .error .ok := by
  unfold decode
  split
  · exact nofun
  split
  · exact nofun
  split <;> exact nofun

/-! ## Validation -/

/-- The word of a command is valid exactly when its LEN is legal, and else fails with ERR_LEN (R42, R83). -/
theorem validate_encode (i : Instr) : validate (encode i) = if lenLegal i.len then .ok else .len := by
  rw [validate_of_decode_ok (decodeInvertsEncode i), lenField_encode]

theorem validate_encode_eq_ok_iff (i : Instr) :
    validate (encode i) = .ok ↔ 1 ≤ i.len.toNat ∧ i.len.toNat ≤ 32 := by
  rw [validate_encode, ← lenLegal_iff]
  split
  · rename_i h; simp [h]
  · rename_i h; simp [h]

theorem validate_ne_ok_of_not_namesCommand {w : Word} (h : ¬ NamesCommand w) : validate w ≠ .ok := fun hv =>
  decode_ne_error_ok w (hv ▸ decode_of_not_namesCommand h)

/-! ## The statements on words -/

/-- Settles O3: such a word is the encoding of its command, and encodings meet their row. -/
theorem encodeInvertsDecode : Obligations.EncodeInvertsDecode := by
  intro w i h
  obtain rfl := decode_eq_ok_iff.1 h
  exact ⟨rfl, encode_and_rowMask i⟩

/-- Settles O6: a valid word decodes, since the error of its decoding is what validation reports, and so is the
encoding of a command, valid exactly when LEN is legal. -/
theorem acceptedWordsAreWellFormedCommands : Obligations.AcceptedWordsAreWellFormedCommands := by
  intro w
  constructor
  · intro hv
    cases hd : decode w with
    | ok i =>
      obtain rfl := decode_eq_ok_iff.1 hd
      exact ⟨i, rfl, (validate_encode_eq_ok_iff i).1 hv⟩
    | error e =>
      obtain rfl := (validate_of_decode_error hd).symm.trans hv
      exact absurd hd (decode_ne_error_ok w)
  · rintro ⟨i, hd, hlen⟩
    obtain rfl := decode_eq_ok_iff.1 hd
    exact (validate_encode_eq_ok_iff i).2 hlen

theorem assemble_of_legal {L FB : Nat} (h : 1 ≤ L ∧ L ≤ 32 ∧ FB ≤ 7) (mk : BitVec 8 → BitVec 3 → Instr) :
    assemble mk L FB = some (encode (mk (BitVec.ofNat 8 L) (BitVec.ofNat 3 FB))) := if_pos h

/-- Settles O7: what it assembles is an encoding, of a command whose operands fit their fields. -/
theorem assemblerGivesAcceptedWords : Obligations.AssemblerGivesAcceptedWords := by
  refine ⟨by decide, fun p mk hmk L FB => ⟨fun h => ?_, fun h => if_neg h⟩⟩
  have hL : (BitVec.ofNat 8 L).toNat = L := by rw [BitVec.toNat_ofNat]; omega
  have hFB : (BitVec.ofNat 3 FB).toNat = FB := by rw [BitVec.toNat_ofNat]; omega
  have hops : (mk (BitVec.ofNat 8 L) (BitVec.ofNat 3 FB)).len.toNat = L ∧
      (mk (BitVec.ofNat 8 L) (BitVec.ofNat 3 FB)).fb.toNat = FB := by
    rcases hmk with rfl | rfl
    · rw [encOf_len, encOf_fb]; exact ⟨hL, hFB⟩
    · rw [unpOf_len, unpOf_fb]; exact ⟨hL, hFB⟩
  refine ⟨_, assemble_of_legal h mk, (validate_encode_eq_ok_iff _).2 ?_, _, decodeInvertsEncode _, rfl, hops⟩
  rw [hops.1]
  exact ⟨h.1, h.2.1⟩

/-- Settles O1: each word is the encoding of its expansion, and so decodes to it. -/
theorem framePseudoInstructionWords : Obligations.FramePseudoInstructionWords := by
  have hframe : ∀ {i j : Instr} {w : Word}, encode i = w → j = i → encode i = w ∧ decode w = .ok i ∧ j = i :=
    fun h hj => ⟨h, decode_eq_ok_iff.2 h, hj⟩
  exact ⟨hframe (by decide) rfl, hframe (by decide) rfl, hframe (by decide) rfl, hframe (by decide) rfl,
    hframe (by decide) rfl, hframe (by decide) rfl⟩

/-! ## Issuing a command while idle (R48, R84) -/

theorem hostWrite_cmd (w : Word) (s : State) :
    hostWrite 0x0008#13 4 w s = { cmdWrite w s with response := some .writeOk } := rfl

section Issue

variable {w : Word} {s : State} (hb : s.busy = false)
include hb

theorem cmdWrite_of_valid (hv : validate w = .ok) :
    cmdWrite w s = accept { s with lcmd := w, done := false, errcode := .ok } := by
  rw [cmdWrite, if_neg (Bool.eq_false_iff.1 hb), issue, if_pos hv]

theorem cmdWrite_of_invalid (hv : validate w ≠ .ok) :
    cmdWrite w s = cmdError (validate w) { s with lcmd := w, done := false, errcode := .ok } := by
  rw [cmdWrite, if_neg (Bool.eq_false_iff.1 hb), issue, if_neg hv]

end Issue

/-- Settles O19: by validation, an acceptance or a command error of the state with the word latched. -/
theorem commandIssueWhileIdle : Obligations.CommandIssueWhileIdle := by
  intro w s hb
  rw [hostWrite_cmd]
  by_cases hv : validate w = .ok
  · rw [cmdWrite_of_valid hb hv]
    exact ⟨rfl, rfl, rfl, rfl, rfl, fun a => byteAt_congr rfl rfl a, rfl, fun _ => ⟨rfl, rfl, rfl⟩,
      fun hne => absurd hv hne⟩
  · rw [cmdWrite_of_invalid hb hv]
    exact ⟨rfl, rfl, rfl, rfl, rfl, fun a => byteAt_congr rfl rfl a, rfl, fun hok => absurd hok hv,
      fun _ => ⟨rfl, rfl, rfl⟩⟩

/-- Settles O20: the write is `overrun`. -/
theorem commandIssueWhileBusyIsDropped : Obligations.CommandIssueWhileBusyIsDropped := fun w _ hb =>
  hostWrite_cmd_busy w hb

/-- Settles O4: a word of R44's condition is the encoding of the command of its fields, so its row, its number and its
validation are that command's; any other word fails to decode with the error of its validation, which the issue
records. -/
theorem decodingIsTotal : Obligations.DecodingIsTotal := by
  intro w
  refine ⟨fun (h : NamesCommand w) => ?_, fun (h : ¬ NamesCommand w) => ?_⟩
  · have hop : w.toNat % 4 < 2 := h.2.2
    obtain ⟨p, hp⟩ := exists_patNumber_eq (n := w.toNat / 2 ^ 2 % 2 ^ 2) (by omega)
    have henc := encode_commandOf_fields h hp
    have hrow := encode_and_rowMask (commandOf (w.toNat % 4) p (lenField w) (fbField w))
    have hnum := encode_commandOf_toNat hop p (lenField w) (fbField w)
    have hval := validate_encode (commandOf (w.toNat % 4) p (lenField w) (fbField w))
    rw [henc] at hrow hnum hval
    have hlen : lenLegal (lenField w) = true ↔ ¬((lenField w).toNat = 0 ∨ 32 < (lenField w).toNat) := by
      rw [lenLegal_iff]; omega
    refine ⟨p, lenField w, fbField w, _, hp, lenField_toNat w, fbField_toNat w, rfl, decode_of_namesCommand h hp, hrow,
      commandOf_rowMatch_toNat hop p _ _, hnum, ?_⟩
    rw [hval, commandOf_len, if_congr hlen rfl rfl, ite_not]
  · have hv := validate_ne_ok_of_not_namesCommand h
    refine ⟨hv, decode_of_not_namesCommand h, fun s hb => ?_⟩
    rw [hostWrite_cmd, cmdWrite_of_invalid hb hv]
    exact ⟨rfl, rfl, rfl⟩

/-! ## The engine's step of a busy block -/

/-- Settles O10: by the ways a command can end, the two completions being of a legal LEN. -/
theorem illegalLengthIsTurnedAway : Obligations.IllegalLengthIsTurnedAway := by
  intro i s hlen
  obtain ⟨-, hx⟩ | ⟨hl, -⟩ | ⟨hl, -⟩ := exec_cases i s
  · exact ⟨_, hx, rfl, rfl, rfl, rfl, rfl, fun a => byteAt_congr rfl rfl a, cmdError_kept _ s, rfl, rfl⟩
  · rw [lenLegal_iff] at hl; omega
  · rw [lenLegal_iff] at hl; omega

theorem performCommand_of_decode {s : State} {i : Instr} (h : decode s.lcmd = .ok i) : performCommand s = exec i s := by
  rw [performCommand, h]

/-- The engine's step always ends the command, whatever LCMD holds (R50). -/
theorem performCommand_ends (s : State) :
    ∃ t, performCommand s = .next t ∧ t.busy = false ∧ t.done = true ∧ KeptByCommand s t := by
  obtain ⟨i, -, hp⟩ | ⟨e, -, hp⟩ := performCommand_cases s
  · rw [hp]; exact exec_kept i s
  · exact ⟨_, hp, rfl, rfl, cmdError_kept e s⟩

section Step

variable {s : State} (hra : s.resetAsserted = false)
include hra

theorem step_of_no_event (hp : s.pending = []) : step s = if s.busy then performCommand s else .next s := by
  simp only [step, nextEvent, hra, hp, Bool.false_eq_true, if_false]

theorem step_of_event {e : HostEvent} {rest : List HostEvent} (hp : s.pending = e :: rest) :
    step s = if engineDue e s then performCommand s else hostMove e rest s := by
  simp only [step, nextEvent, hra, hp, Bool.false_eq_true, if_false]

end Step

theorem waitForIrq_of_irq {s : State} (h : s.irq = true) (rest : List HostEvent) :
    waitForIrq rest s = .next { s with pending := rest } := if_pos h

theorem waitForIrq_of_busy {s : State} (h : s.irq = false) (hb : s.busy = true) (rest : List HostEvent) :
    waitForIrq rest s = performCommand s := by
  rw [waitForIrq, if_neg (Bool.eq_false_iff.1 h), if_pos hb]

theorem waitForIrq_of_idle {s : State} (h : s.irq = false) (hb : s.busy = false) (rest : List HostEvent) :
    waitForIrq rest s = .next s := by
  rw [waitForIrq, if_neg (Bool.eq_false_iff.1 h), if_neg (Bool.eq_false_iff.1 hb)]

/-- With no host access left before it the completion is due before every event but a WAITIRQ (R104). -/
theorem engineDue_of_no_latency {s : State} (hb : s.busy = true) (hl : s.latencyLeft = 0) {e : HostEvent}
    (he : e ≠ .waitIrq) : engineDue e s = true := by
  have hlat : (s.busy && s.latencyLeft == 0) = true := by rw [hb, hl]; rfl
  cases e with
  | waitIrq => exact absurd rfl he
  | write off bytes v => exact hlat
  | read off bytes => exact hlat
  | poll off mask value => exact hlat
  | assertReset => exact hlat
  | releaseReset => exact hlat

/-- The step of a busy block before whose completion no host access can come (R50, R104). -/
theorem step_eq_performCommand {s : State} (hra : s.resetAsserted = false) (hb : s.busy = true)
    (hdue : s.pending = [] ∨ (s.latencyLeft = 0 ∧ s.irq = false)) : step s = performCommand s := by
  cases hp : s.pending with
  | nil => rw [step_of_no_event hra hp, if_pos hb]
  | cons e rest =>
    obtain hnil | ⟨hl, hirq⟩ := hdue
    · rw [hp] at hnil; cases hnil
    rw [step_of_event hra hp]
    by_cases he : e = .waitIrq
    · subst he
      exact waitForIrq_of_busy hirq hb rest
    · rw [if_pos (engineDue_of_no_latency hb hl he)]

/-- Settles O40: the step is the engine's, of the command LCMD decodes to. -/
theorem stepPerformsDecodedCommand : Obligations.StepPerformsDecodedCommand := by
  intro s i hd hb hra hdue
  rw [step_eq_performCommand hra hb hdue, performCommand_of_decode hd]

theorem decode_of_decodeTableWord {nbits w : Nat} {i : Instr} (h : decodeTableWord nbits w = some i) :
    decode (BitVec.ofNat 32 w) = .ok i := by
  rw [decodeTableWord] at h
  split at h
  · cases hd : decode (BitVec.ofNat 32 w) with
    | ok j => rw [hd] at h; cases h; rfl
    | error e => rw [hd] at h; cases h
  · cases h

/-- Settles O41: placing a command leaves a busy block with no latency and DONE, hence irq, at 0. -/
theorem placedCommandRunsNext : Obligations.PlacedCommandRunsNext := by
  intro s w i hw htab
  have hlcmd : (s.withFetchWord 32 w).lcmd = BitVec.ofNat 32 w := by
    rw [State.withFetchWord, placeCommand_lcmd, Nat.mod_eq_of_lt hw]
  refine ⟨hlcmd, stepPerformsDecodedCommand _ i ?_ rfl rfl (.inr ⟨rfl, Bool.and_false _⟩)⟩
  rw [hlcmd]
  exact decode_of_decodeTableWord htab

/-- Settles O44: no agent can move. -/
theorem idleBlockKeepsItsState : Obligations.IdleBlockKeepsItsState := by
  intro s hb hra hp
  rw [step_of_no_event hra hp, if_neg (Bool.eq_false_iff.1 hb)]

/-! ## POLL and WAITIRQ (R47) -/

/-- One read of a POLL is the read, with the event list as its condition says. -/
theorem pollOnce_eq (off : BitVec 13) (mask value : Word) (rest : List HostEvent) (s : State) :
    pollOnce off mask value rest s =
      { hostRead off 4 (consume rest s) with
        pending := if responseData (hostRead off 4 (consume rest s)).response &&& mask = value then rest
          else s.pending } := by
  rw [pollOnce]
  split
  · obtain ⟨r, n, hf⟩ := hostRead_frame off 4 (consume rest s)
    rw [hf]; rfl
  · rfl

/-- A read keeps the registers and the bytes, whatever then becomes of the event list. -/
theorem hostRead_consume_same (off : BitVec 13) (bytes : Nat) (rest events : List HostEvent) (s : State) :
    SameRegisters s { hostRead off bytes (consume rest s) with pending := events } ∧
      SameBytes s { hostRead off bytes (consume rest s) with pending := events } := by
  obtain ⟨r, n, hf⟩ := hostRead_frame off bytes (consume rest s)
  rw [hf]
  exact ⟨⟨rfl, rfl, rfl, rfl, rfl, rfl, rfl, rfl, rfl, rfl, rfl⟩, fun a => byteAt_congr rfl rfl a⟩

/-- BUSY is bit 0 of STATUS (10_state.md R11). -/
theorem statusWord_and_one_eq_zero_iff (s : State) : statusWord s &&& 0x1#32 = 0x0#32 ↔ s.busy = false := by
  have hbit : (statusWord s).toNat % 2 = s.busy.toNat % 2 := by rw [statusWord_toNat]; omega
  rw [← BitVec.toNat_inj, BitVec.toNat_and, show (0x1#32).toNat = 1 from rfl, Nat.and_one_is_mod, hbit]
  cases s.busy <;> decide

/-- Settles O43: a POLL is one read with the list as its condition says; of STATUS its data is BUSY in bit 0. A WAITIRQ
is `waitForIrq` in each of its three cases. -/
theorem pollAndWaitIrq : Obligations.PollAndWaitIrq := by
  intro s rest hmay
  have hpoll : ∀ (off : BitVec 13) (mask value : Word), s.pending = .poll off mask value :: rest →
      step s = .next (pollOnce off mask value rest s) := fun off mask value hp => step_of_hostMayMove hmay hp
  refine ⟨fun off mask value hp => ?_, fun hp => ?_, fun hp hirq => ?_, fun hp hirq hb => ?_, fun hp hirq hb => ?_⟩
  · obtain ⟨hregs, hbytes⟩ := hostRead_consume_same off 4 rest
      (if responseData (hostRead off 4 (consume rest s)).response &&& mask = value then rest else s.pending) s
    exact ⟨by rw [hpoll off mask value hp, pollOnce_eq]; rfl, hregs, hbytes⟩
  · have hresp : (hostRead 0x000C#13 4 (consume rest s)).response = some (.readOk (statusWord s)) := hostRead_status _
    obtain ⟨hregs, hbytes⟩ := hostRead_consume_same 0x000C#13 4 rest (if s.busy then s.pending else rest) s
    refine ⟨{ hostRead 0x000C#13 4 (consume rest s) with pending := if s.busy then s.pending else rest }, ?_, hresp,
      hregs, hbytes, rfl⟩
    rw [hpoll _ _ _ hp, pollOnce_eq, hresp, responseData,
      if_congr ((statusWord_and_one_eq_zero_iff s).trans Bool.eq_false_iff) rfl rfl, ite_not]
  · rw [step_of_hostMayMove hmay hp]; exact waitForIrq_of_irq hirq rest
  · rw [step_of_hostMayMove hmay hp]; exact waitForIrq_of_idle hirq hb rest
  · obtain ⟨t, hperf, hidle, hdone, hkept⟩ := performCommand_ends s
    refine ⟨t, ?_, hidle, hdone, hkept.pending⟩
    rw [step_of_hostMayMove hmay hp, ← hperf]
    exact waitForIrq_of_busy hirq hb rest

/-! ## A busy block completes (R50, R104) -/

/-- A host access after which the command in progress goes on, one access nearer to its completion. -/
structure Progress (s t : State) : Prop where
  busy : t.busy = s.busy
  done : t.done = s.done
  resetAsserted : t.resetAsserted = s.resetAsserted
  lcmd : t.lcmd = s.lcmd
  latencyLeft : t.latencyLeft = s.latencyLeft - 1
  pending : t.pending ⊆ s.pending

theorem noReset_ctrl {v : Word} (h : noReset (.write 0x0004#13 4 v) = true) : v.getLsbD 1 = false := by
  simpa [noReset] using h

theorem hostRead_progress (off : BitVec 13) (bytes : Nat) {rest events : List HostEvent} {s : State}
    (hsub : events ⊆ s.pending) : Progress s { hostRead off bytes (consume rest s) with pending := events } := by
  obtain ⟨r, n, hf⟩ := hostRead_frame off bytes (consume rest s)
  rw [hf]
  exact ⟨rfl, rfl, rfl, rfl, rfl, hsub⟩

/-- A bus write to a busy block that is no soft reset. -/
theorem WriteShape.progress {off : BitVec 13} {bytes : Nat} {v : Word} {rest : List HostEvent} {s t : State}
    (ht : WriteShape off bytes v (consume rest s) t) (hsub : rest ⊆ s.pending) (hb : s.busy = true)
    (hd : s.done = false) (hn : noReset (.write off bytes v) = true) : Progress s t := by
  cases ht with
  | ignored ht => rw [ht]; exact ⟨rfl, rfl, rfl, rfl, rfl, hsub⟩
  | dropped h4 hb' ho ht => subst ht; exact ⟨rfl, rfl, rfl, rfl, rfl, hsub⟩
  | setsIe h4 ho hv ht => subst ht; exact ⟨rfl, rfl, rfl, rfl, rfl, hsub⟩
  | resets h4 ho hv ht => subst h4 ho; rw [noReset_ctrl hn] at hv; cases hv
  | clears h4 ho ht =>
    subst ht
    refine ⟨rfl, ?_, rfl, rfl, rfl, hsub⟩
    change (s.done && !v.getLsbD 1) = s.done
    rw [hd, Bool.false_and]
  | accepted h4 ho hb' hv ht => exact nomatch hb.symm.trans hb'
  | rejected h4 ho hb' hv ht => exact nomatch hb.symm.trans hb'
  | stored h4 hal ho hb' ht => exact nomatch hb.symm.trans hb'

/-- The events of a busy block that are no reset: a WAITIRQ lets the engine complete, any other is an access after which
the command goes on. -/
theorem hostMove_progress {s : State} {e : HostEvent} {rest : List HostEvent} (hb : s.busy = true)
    (hd : s.done = false) (hp : s.pending = e :: rest) (hn : noReset e = true) :
    hostMove e rest s = performCommand s ∨ ∃ t, hostMove e rest s = .next t ∧ Progress s t := by
  have hsub : rest ⊆ s.pending := hp ▸ List.subset_cons_self e rest
  cases e with
  | write off bytes v =>
    exact .inr ⟨_, rfl, (hostWrite_shape off bytes v (consume rest s)).progress hsub hb hd hn⟩
  | read off bytes =>
    obtain ⟨r, n, hf⟩ := hostRead_frame off bytes (consume rest s)
    exact .inr ⟨_, rfl, by rw [hf]; exact ⟨rfl, rfl, rfl, rfl, rfl, hsub⟩⟩
  | poll off mask value =>
    refine .inr ⟨_, rfl, ?_⟩
    rw [pollOnce_eq]
    refine hostRead_progress off 4 ?_
    split
    · exact hsub
    · exact List.Subset.refl _
  | waitIrq => exact .inl (waitForIrq_of_busy (by rw [State.irq, hd, Bool.and_false]) hb rest)
  | assertReset => cases hn
  | releaseReset => cases hn

/-- One step of a busy block with no reset to come: its completion, or an access out of its latency. -/
theorem step_of_busy {s : State} (hb : s.busy = true) (hd : s.done = false) (hra : s.resetAsserted = false)
    (hn : ∀ e ∈ s.pending, noReset e = true) :
    step s = performCommand s ∨ (s.latencyLeft ≠ 0 ∧ ∃ t, step s = .next t ∧ Progress s t) := by
  by_cases hl : s.latencyLeft = 0
  · exact .inl (step_eq_performCommand hra hb (.inr ⟨hl, by rw [State.irq, hd, Bool.and_false]⟩))
  cases hp : s.pending with
  | nil => exact .inl (step_eq_performCommand hra hb (.inl hp))
  | cons e rest =>
    have he : noReset e = true := hn e (hp ▸ List.mem_cons_self)
    rw [step_of_hostMayMove ⟨hra, fun _ => hl⟩ hp]
    exact (hostMove_progress hb hd hp he).imp_right fun h => ⟨hl, h⟩

theorem run_succ {s t : State} (h : step s = .next t) (k : Nat) :
    Host.Core.run core (k + 1) s = Host.Core.run core k t := by
  have h' : core.step s = .next t := h
  simp only [Host.Core.run, h']

/-- The completion step is a run of its own. -/
theorem run_one_of_performCommand {s : State} (h : step s = performCommand s) :
    ∃ t, Host.Core.run core 1 s = .next t ∧ t.busy = false ∧ t.done = true ∧ t.lcmd = s.lcmd := by
  obtain ⟨t, hperf, hidle, hdone, hkept⟩ := performCommand_ends s
  exact ⟨t, run_succ (h.trans hperf) 0, hidle, hdone, hkept.lcmd⟩

/-- Settles O48: by induction on the latency left, each step being the completion or an access that lowers it. -/
theorem busyCommandCompletes : Obligations.BusyCommandCompletes := by
  intro s
  induction hlat : s.latencyLeft generalizing s with
  | zero =>
    intro hb hd hra hn
    obtain hstep | ⟨hl, -⟩ := step_of_busy hb hd hra hn
    · obtain ⟨t, hrun⟩ := run_one_of_performCommand hstep
      exact ⟨1, t, by omega, by omega, hrun⟩
    · exact absurd hlat hl
  | succ n ih =>
    intro hb hd hra hn
    obtain hstep | ⟨-, u, hstep, hu⟩ := step_of_busy hb hd hra hn
    · obtain ⟨t, hrun⟩ := run_one_of_performCommand hstep
      exact ⟨1, t, by omega, by omega, hrun⟩
    · obtain ⟨k, t, -, hle, hrun, hidle, hdone, hlcmd⟩ := ih u (by rw [hu.latencyLeft]; omega) (hu.busy.trans hb)
        (hu.done.trans hd) (hu.resetAsserted.trans hra) (fun e he => hn e (hu.pending he))
      exact ⟨k + 1, t, by omega, by omega, (run_succ hstep k).trans hrun, hidle, hdone, hlcmd.trans hu.lcmd⟩

end Sys2Proof.Machine

/-! Proofs for the encoder's family (40_encode.md): the number of kept bits, the shift-register form of the code, its
linearity and its memory, and what an ENCODE command leaves in OBUF. -/

namespace Sys2Proof.Machine

/-! ## The number of kept bits (R63) -/

@[simp] theorem patternEntries_lsf_length : (patternEntries .lsf).length = 61 := rfl
@[simp] theorem patternEntries_pkt_length : (patternEntries .pkt).length = 8 := rfl
@[simp] theorem patternEntries_str_length : (patternEntries .str).length = 12 := rfl
@[simp] theorem patternEntries_raw_length : (patternEntries .raw).length = 1 := rfl

theorem ones_lsf : ones (patternEntries .lsf) = 46 := by decide
theorem ones_pkt : ones (patternEntries .pkt) = 7 := by decide
theorem ones_str : ones (patternEntries .str) = 11 := by decide
theorem ones_raw : ones (patternEntries .raw) = 1 := by decide

/-- Within the pattern the number of kept positions before `r` is the number of ones of its
first `r` entries. -/
theorem ones_take_patternEntries (p : Pattern) {r : Nat} (h : r ≤ (patternEntries p).length) :
    ones ((patternEntries p).take r) = refRank p r := by
  induction r with
  | zero => rfl
  | succ r ih =>
    have hkeep : (patternEntries p)[r] = refKeeps p r := by
      rw [← keeps_eq_refKeeps, keeps, Nat.mod_eq_of_lt h, List.getD_eq_getElem _ _ h]
    have hih := ih (by omega)
    rw [ones] at hih
    rw [ones, List.take_succ_eq_append_getElem h, List.count_append, hih, hkeep, List.count_singleton, refRank]
    simp only [beq_true]

/-- `Kept(T, P)` in the closed forms of R63: whole turns of the pattern, and the rest of the last one. -/
theorem kept_eq_refKept (p : Pattern) (T : Nat) : kept T (patternEntries p) = refKept p T := by
  have hpos : 0 < (patternEntries p).length := by cases p <;> decide
  rw [kept, ones_take_patternEntries p (Nat.mod_lt T hpos).le, refRank_eq_refKept]
  cases p with
  | lsf => rw [ones_lsf, patternEntries_lsf_length]; simp only [refKept]; omega
  | pkt => rw [ones_pkt, patternEntries_pkt_length]; simp only [refKept]; omega
  | str => rw [ones_str, patternEntries_str_length]; simp only [refKept]; omega
  | raw => rw [ones_raw, patternEntries_raw_length]; simp only [refKept]; omega

theorem refKept_le (p : Pattern) (T : Nat) : refKept p T ≤ T := by
  rw [← refRank_eq_refKept]; exact refRank_le p T

/-- Every pattern keeps its first position. -/
theorem refKept_pos (p : Pattern) {T : Nat} (h : 0 < T) : 0 < refKept p T := by
  have hkeep : refKeeps p 0 = true := by cases p <;> rfl
  rw [← refRank_eq_refKept]
  exact refRank_lt_of_kept p h hkeep

theorem codeLength_ge (len : BitVec 8) (fb : BitVec 3) : 10 ≤ codeLength len fb := by
  simp only [codeLength, inputCount]; omega

/-- Settles O11: the first entries of a pattern have as many ones as there are kept positions among them, which gives
the closed forms; the bounds are those of the kept positions. -/
theorem keptCountClosedForm : Obligations.KeptCountClosedForm :=
  ⟨⟨ones_lsf, ones_pkt, ones_str, ones_raw⟩, fun p c =>
    ⟨rfl, kept_eq_refKept p c.length, puncture_length p c, refKept_le p c.length, fun h => refKept_pos p (by omega),
      fun len fb h => ⟨codeLength_ge len fb, codeLength_le len fb h⟩⟩⟩

/-- Settles O12: n and T are computed from the operands, OUT by the closed forms. -/
theorem frameGeometries : Obligations.FrameGeometries := by
  refine ⟨⟨rfl, rfl, ?_⟩, ⟨rfl, rfl, ?_⟩, rfl, rfl, ?_⟩
  · rw [kept_eq_refKept]; rfl
  · rw [kept_eq_refKept]; rfl
  · rw [kept_eq_refKept]; rfl

/-! ## The shift-register form (R57) -/

/-- The shift register when the last four bits were `a`, `b`, `c`, `d`, the newest last (10_state.md R18). -/
def srOfBits (a b c d : Bool) : BitVec 4 := BitVec.ofBoolListBE [d, c, b, a]

theorem srNext_srOfBits (a b c d x : Bool) : srNext (srOfBits a b c d) x = srOfBits b c d x := by
  revert a b c d x; decide

/-- The outputs of a step are the generators on the window of the last four bits and the current one. -/
theorem srOutput_srOfBits (a b c d x : Bool) :
    srOutput (srOfBits a b c d) x =
      (generator windowTaps.g1 [a, b, c, d, x], generator windowTaps.g2 [a, b, c, d, x]) := by
  revert a b c d x; decide

/-- One step of the sliding window (R55, R56). -/
theorem slide_window (t : Config.Taps) (a b c d x : Bool) (u : List Bool) :
    slide t (a :: b :: c :: d :: x :: u) =
      generator t.g1 [a, b, c, d, x] :: generator t.g2 [a, b, c, d, x] :: slide t (b :: c :: d :: x :: u) :=
  if_pos (Nat.le_add_left 4 u.length)

/-- The shift register run from the last four bits gives the code bits of the windows that start at them. -/
theorem srEncode_srOfBits (a b c d : Bool) (u : List Bool) :
    srEncode (srOfBits a b c d) u = slide windowTaps (a :: b :: c :: d :: u) := by
  induction u generalizing a b c d with
  | nil => rfl
  | cons x u ih =>
    rw [srEncode, srOutput_srOfBits, srNext_srOfBits, ih, slide_window]

theorem srEncode_zero_eq_convEncode (u : List Bool) :
    srEncode 0#4 (u ++ List.replicate 4 false) = convEncode u :=
  srEncode_srOfBits false false false false (u ++ List.replicate 4 false)

/-- Settles O13: the register holds the four bits before the current one, so its steps are the windows' generators; the
table is finite. -/
theorem shiftRegisterFormIsTheCode : Obligations.ShiftRegisterFormIsTheCode :=
  ⟨fun u => ⟨srEncode_zero_eq_convEncode u, srAfter_eq_zero u⟩, by decide, by decide⟩

/-! ## Linearity (R66) -/

section Linear

variable {u v : List Bool}

theorem length_zipWith_xor (h : u.length = v.length) : (List.zipWith xor u v).length = u.length := by
  rw [List.length_zipWith, ← h, Nat.min_self]

theorem zipWith_xor_getD (h : u.length = v.length) (k : Nat) :
    (List.zipWith xor u v).getD k false = (u.getD k false ^^ v.getD k false) := by
  by_cases hk : k < u.length
  · have hv : k < v.length := h ▸ hk
    rw [List.getD_eq_getElem _ _ hk, List.getD_eq_getElem _ _ hv,
      List.getD_eq_getElem _ _ (by rwa [length_zipWith_xor h]), List.getElem_zipWith]
  · rw [List.getD_eq_default u _ (by omega), List.getD_eq_default v _ (by omega),
      List.getD_eq_default _ _ (by rw [length_zipWith_xor h]; omega)]
    rfl

/-- Two sequences of one length that agree by index are equal. -/
theorem eq_of_getD (hl : u.length = v.length) (h : ∀ i, i < u.length → u.getD i false = v.getD i false) : u = v :=
  List.ext_getElem hl fun i hu hv => by
    rw [← List.getD_eq_getElem _ false hu, ← List.getD_eq_getElem _ false hv, h i hu]

theorem extended_zipWith_xor_getD (h : u.length = v.length) (j : Nat) :
    (extended (List.zipWith xor u v)).getD j false = ((extended u).getD j false ^^ (extended v).getD j false) := by
  rw [extended_getD, extended_getD, extended_getD, zipWith_xor_getD h, length_zipWith_xor h, ← h]
  split
  · rfl
  split <;> rfl

theorem length_convEncode_congr (h : u.length = v.length) : (convEncode u).length = (convEncode v).length := by
  rw [convEncode_length, convEncode_length, h]

/-- Each code bit is a sum of bits of the extended stream. -/
theorem convEncode_zipWith_xor (h : u.length = v.length) :
    convEncode (List.zipWith xor u v) = List.zipWith xor (convEncode u) (convEncode v) := by
  have hz := length_zipWith_xor h
  have hc := length_convEncode_congr h
  refine eq_of_getD (by rw [length_zipWith_xor hc]; exact length_convEncode_congr hz) fun i hi => ?_
  rw [convEncode_length] at hi
  rw [zipWith_xor_getD hc, convEncode_getD _ _ hi, convEncode_getD _ _ (hz ▸ hi), convEncode_getD _ _ (h ▸ hz ▸ hi)]
  simp only [extended_zipWith_xor_getD h]
  split <;> simp only [Bool.xor_assoc, Bool.xor_left_comm]

/-- What puncturing keeps depends on the position alone. -/
theorem punctureFrom_zipWith_xor (P : List Bool) (i : Nat) (h : u.length = v.length) :
    punctureFrom P i (List.zipWith xor u v) = List.zipWith xor (punctureFrom P i u) (punctureFrom P i v) := by
  induction u generalizing v i with
  | nil => rfl
  | cons b u ih =>
    cases v with
    | nil => cases h
    | cons b' v =>
      rw [List.zipWith_cons_cons, punctureFrom, punctureFrom, punctureFrom, ih (i + 1) (Nat.succ.inj h)]
      split <;> rfl

/-- The map from the input to the output is linear over GF(2). -/
theorem puncture_convEncode_zipWith_xor (P : List Bool) (h : u.length = v.length) :
    puncture (convEncode (List.zipWith xor u v)) P =
      List.zipWith xor (puncture (convEncode u) P) (puncture (convEncode v) P) := by
  rw [convEncode_zipWith_xor h]
  exact punctureFrom_zipWith_xor P 0 (length_convEncode_congr h)

end Linear

theorem eq_false_of_eq_zipWith_xor_self {y : List Bool} (h : y = List.zipWith xor y y) : ∀ b ∈ y, b = false := by
  rw [List.zipWith_self] at h
  simp only [Bool.xor_self] at h
  intro b hb
  rw [h] at hb
  obtain ⟨-, -, rfl⟩ := List.mem_map.1 hb
  rfl

/-- The zero input is its own sum with itself, so its output is too. -/
theorem puncture_convEncode_zeros (P : List Bool) (n : Nat) :
    ∀ b ∈ puncture (convEncode (List.replicate n false)) P, b = false := by
  have hz : List.zipWith xor (List.replicate n false) (List.replicate n false) = List.replicate n false := by
    rw [List.zipWith_replicate, Nat.min_self]; rfl
  have h := puncture_convEncode_zipWith_xor P (rfl : (List.replicate n false).length = _)
  rw [hz] at h
  exact eq_false_of_eq_zipWith_xor_self h

/-! ## Memory (R66) -/

section Memory

variable {u v : List Bool} (hl : u.length = v.length)
include hl

/-- Position `m` of the extended stream depends only on the input bit 4 places before it. -/
theorem extended_getD_congr {m : Nat} (h : ∀ j, j + 4 = m → u[j]? = v[j]?) :
    (extended u).getD m false = (extended v).getD m false := by
  rw [extended_getD, extended_getD, hl]
  by_cases hm : m < 4
  · rw [if_pos hm, if_pos hm]
  · rw [List.getD_eq_getElem?_getD, List.getD_eq_getElem?_getD, h (m - 4) (by omega)]

/-- A code bit depends only on the input bits at most 4 steps before it. -/
theorem convEncode_getElem?_congr {i : Nat} (h : ∀ j, j ≤ i / 2 → i / 2 ≤ j + 4 → u[j]? = v[j]?) :
    (convEncode u)[i]? = (convEncode v)[i]? := by
  have hlen := length_convEncode_congr hl
  have hext : ∀ k, k ≤ 4 → (extended u).getD (i / 2 + k) false = (extended v).getD (i / 2 + k) false :=
    fun k hk => extended_getD_congr hl fun j hj => h j (by omega) (by omega)
  by_cases hi : i < (convEncode u).length
  · have hbit : (convEncode u).getD i false = (convEncode v).getD i false := by
      rw [convEncode_getD u i (by rwa [convEncode_length] at hi),
        convEncode_getD v i (by rwa [hlen, convEncode_length] at hi), hext 4 (by omega), hext 3 (by omega),
        hext 2 (by omega), hext 1 (by omega), ← Nat.add_zero (i / 2), hext 0 (by omega)]
    rw [List.getD_eq_getElem _ _ hi, List.getD_eq_getElem _ _ (hlen ▸ hi)] at hbit
    rw [List.getElem?_eq_getElem hi, List.getElem?_eq_getElem (hlen ▸ hi), hbit]
  · rw [List.getElem?_eq_none (by omega), List.getElem?_eq_none (by omega)]

end Memory

/-- Settles O14: the extended stream, the generators and the puncturing are each linear; a code bit is a function of a
window of five positions of the extended stream. -/
theorem puncturedCodeIsLinear : Obligations.PuncturedCodeIsLinear :=
  ⟨fun p _ _ h => puncture_convEncode_zipWith_xor (patternEntries p) h,
    fun p n => puncture_convEncode_zeros (patternEntries p) n, fun _ _ _ hl h => convEncode_getElem?_congr hl h⟩

/-! ## The input bits and the code word of a command, by index (R53 to R56) -/

section Operands

variable {len : BitVec 8} (h1 : 1 ≤ len.toNat) (fb : BitVec 3)
include h1

theorem extended_inputBits_getD (s : State) (j : Nat) :
    (extended (inputBits s len fb)).getD j false = refExtended s (inputCount len fb) j := by
  rw [extended_getD, inputBits_length s len fb h1, refExtended]
  split
  · rfl
  split
  · rw [inputBits_getD s len fb h1 _ (by omega)]
  · rfl

theorem convEncode_inputBits_length (s : State) :
    (convEncode (inputBits s len fb)).length = codeLength len fb := by
  rw [convEncode_length, inputBits_length s len fb h1, codeLength]

theorem convEncode_inputBits_getD (s : State) {i : Nat} (hi : i < codeLength len fb) :
    (convEncode (inputBits s len fb)).getD i false = refCode s (inputCount len fb) i := by
  have hlen : i < 2 * ((inputBits s len fb).length + 4) := by rwa [inputBits_length s len fb h1]
  simp only [convEncode_getD _ _ hlen, extended_inputBits_getD h1, refCode]

theorem punctured_inputBits_length (p : Pattern) (s : State) :
    (puncture (convEncode (inputBits s len fb)) (patternEntries p)).length = refKept p (codeLength len fb) := by
  rw [puncture_length, convEncode_inputBits_length h1]

/-- The input stream holds the taken bits alone. -/
theorem inputBits_congr {s s' : State} (h : ∀ j, j < inputCount len fb → refInput s j = refInput s' j) :
    inputBits s len fb = inputBits s' len fb := by
  have hl : (inputBits s len fb).length = (inputBits s' len fb).length := by
    rw [inputBits_length s len fb h1, inputBits_length s' len fb h1]
  refine eq_of_getD hl fun j hj => ?_
  rw [inputBits_length s len fb h1] at hj
  rw [inputBits_getD s len fb h1 j hj, inputBits_getD s' len fb h1 j hj, h j hj]

end Operands

/-! ## The ENCODE commands (R67 to R71) -/

theorem exec_encOf_of_legal (p : Pattern) {len : BitVec 8} (fb : BitVec 3) (s : State) (h1 : 1 ≤ len.toNat)
    (h32 : len.toNat ≤ 32) : exec (encOf p len fb) s = .next (completeOk (encodeComplete p len fb s)) := by
  rw [exec_encOf, encodeCommand, if_pos ((lenLegal_iff len).2 ⟨h1, h32⟩)]

theorem encode_completedOk (p : Pattern) (len : BitVec 8) (fb : BitVec 3) (s : State) :
    CompletedOk (completeOk (encodeComplete p len fb s)) :=
  ⟨rfl, rfl, rfl⟩

/-- The frame of an ENCODE completion in memory: it writes OBUF alone. -/
theorem encode_sameBytesOutside (p : Pattern) (len : BitVec 8) (fb : BitVec 3) (s : State) :
    SameBytesOutside obufBase obufSize s (completeOk (encodeComplete p len fb s)) := by
  intro a ha
  rw [encode_byteAt, if_neg ha]

section Completion

variable (p : Pattern) {len : BitVec 8} (fb : BitVec 3) (s : State) (h1 : 1 ≤ len.toNat)
include h1

/-- A kept code bit stands in OBUF at the number of kept positions before it. -/
theorem encode_obufBit_kept (h32 : len.toNat ≤ 32) {i : Nat} (hi : i < codeLength len fb)
    (hk : refKeeps p i = true) :
    (completeOk (encodeComplete p len fb s)).obufBit (refRank p i) = refCode s (inputCount len fb) i := by
  have hrank : refRank p i < 544 := by
    have := refRank_le p i
    have := codeLength_le len fb h32
    omega
  rw [encode_obufBit p len fb s hrank,
    puncture_getD p _ i (by rwa [convEncode_inputBits_length h1]) hk, convEncode_inputBits_getD h1 fb s hi]

/-- OBUF is 0 past the output. -/
theorem encode_obufBit_past {k : Nat} (hk : refKept p (codeLength len fb) ≤ k) (h544 : k < 544) :
    (completeOk (encodeComplete p len fb s)).obufBit k = false := by
  rw [encode_obufBit p len fb s h544, List.getD_eq_default _ _ (by rwa [punctured_inputBits_length h1])]

variable (h32 : len.toNat ≤ 32)
include h32

theorem encode_outCount_toNat :
    (completeOk (encodeComplete p len fb s)).outCount.toNat = refKept p (codeLength len fb) := by
  have hle := (refKept_le p (codeLength len fb)).trans (codeLength_le len fb h32)
  rw [completeOk_outCount, encodeComplete_outCount, punctured_inputBits_length h1, BitVec.toNat_ofNat,
    Nat.mod_eq_of_lt (by omega)]

theorem encode_inCount_toNat :
    (completeOk (encodeComplete p len fb s)).inCount.toNat = inputCount len fb := by
  have hle := inputCount_le_of_legal ((lenLegal_iff len).2 ⟨h1, h32⟩) fb
  rw [completeOk_inCount, encodeComplete_inCount, BitVec.toNat_ofNat, Nat.mod_eq_of_lt (by omega)]

end Completion

theorem encodeResultOf_encOf (p : Pattern) : EncodeResultOf p (encOf p) := fun s len fb h1 h32 =>
  ⟨_, exec_encOf_of_legal p fb s h1 h32, fun _ hi hk => encode_obufBit_kept p fb s h1 h32 hi hk,
    fun _ hk h544 => encode_obufBit_past p fb s h1 hk h544, encode_outCount_toNat p fb s h1 h32,
    encode_inCount_toNat p fb s h1 h32, encode_completedOk p len fb s, srAfter_eq_zero _, rfl,
    encode_sameBytesOutside p len fb s, encode_kept p len fb s⟩

/-- Settles O8: the four commands are the ENCODE commands of the four patterns, each of which completes with the
punctured code word of its input. -/
theorem encodeWritesPuncturedCodeWord : Obligations.EncodeWritesPuncturedCodeWord :=
  ⟨encodeResultOf_encOf .lsf, encodeResultOf_encOf .pkt, encodeResultOf_encOf .str, encodeResultOf_encOf .raw⟩

/-- Settles O15: the output is a function of the input stream, which holds the taken bits alone. -/
theorem untakenBitsDoNotAffectOutput : Obligations.UntakenBitsDoNotAffectOutput := by
  intro p len fb s s' h1 h32 h
  have hu : inputBits s len fb = inputBits s' len fb := inputBits_congr h1 fb h
  refine ⟨_, _, exec_encOf_of_legal p fb s h1 h32, exec_encOf_of_legal p fb s' h1 h32, fun a ha => ?_, ?_, rfl⟩
  · have hobuf : obufBase ≤ a ∧ a < obufBase + obufSize := by simp only [obufBase, obufSize]; omega
    rw [encode_byteAt, encode_byteAt, if_pos hobuf, if_pos hobuf, hu]
  · rw [completeOk_outCount, completeOk_outCount, encodeComplete_outCount, encodeComplete_outCount, hu]

end Sys2Proof.Machine

/-! Proofs for the unpuncturing's family (41_unpuncture.md): the unpunctured stream reads only the entries numbered
below the count of kept positions, and what an UNPUNCTURE command leaves in SOBUF and OUTCNT. -/

namespace Sys2Proof.Machine

/-! ## The entries the unpunctured stream reads (R73, R75) -/

/-- A kept position reads the entry numbered by the kept positions before it, which is below `Kept(T, P)`. -/
theorem unpuncture_congr (p : Pattern) {T : Nat} {src src' : Nat → SoftBit}
    (h : ∀ k, k < refKept p T → src k = src' k) :
    unpuncture T (patternEntries p) src = unpuncture T (patternEntries p) src' := by
  refine List.ext_getElem (by rw [unpuncture_length, unpuncture_length]) fun i hi hi' => ?_
  have hT : i < T := by rwa [unpuncture_length] at hi
  rw [← List.getD_eq_getElem _ 0#16 hi, ← List.getD_eq_getElem _ 0#16 hi', unpuncture_getD p src T i hT,
    unpuncture_getD p src' T i hT]
  by_cases hk : refKeeps p i = true
  · rw [if_pos hk, if_pos hk, h _ (refRank_eq_refKept p T ▸ refRank_lt_of_kept p hT hk)]
  · rw [if_neg hk, if_neg hk]

/-! ## The UNPUNCTURE commands (R74 to R79) -/

theorem exec_unpOf_of_legal (p : Pattern) {len : BitVec 8} (fb : BitVec 3) (s : State) (h1 : 1 ≤ len.toNat)
    (h32 : len.toNat ≤ 32) : exec (unpOf p len fb) s = .next (completeOk (unpunctureComplete p len fb s)) := by
  rw [exec_unpOf, unpunctureCommand, if_pos ((lenLegal_iff len).2 ⟨h1, h32⟩)]

theorem unpuncture_completedOk (p : Pattern) (len : BitVec 8) (fb : BitVec 3) (s : State) :
    CompletedOk (completeOk (unpunctureComplete p len fb s)) :=
  ⟨rfl, rfl, rfl⟩

section Completion

variable (p : Pattern) {len : BitVec 8} (fb : BitVec 3) (s : State) (h32 : len.toNat ≤ 32)
include h32

/-- The frame of an UNPUNCTURE completion in memory: it writes SOBUF alone. -/
theorem unpuncture_sameBytesOutside :
    SameBytesOutside sobufBase softSize s (completeOk (unpunctureComplete p len fb s)) := by
  intro a ha
  rw [unpuncture_byteAt p len fb s h32, if_neg ha]

theorem unpuncture_outCount_toNat :
    (completeOk (unpunctureComplete p len fb s)).outCount.toNat = codeLength len fb := by
  have hle := codeLength_le len fb h32
  rw [completeOk_outCount, unpunctureComplete_outCount, BitVec.toNat_ofNat, Nat.mod_eq_of_lt (by omega)]

theorem unpuncture_inCount_toNat :
    (completeOk (unpunctureComplete p len fb s)).inCount.toNat = refKept p (codeLength len fb) := by
  have hle := (refKept_le p (codeLength len fb)).trans (codeLength_le len fb h32)
  rw [completeOk_inCount, unpunctureComplete_inCount, kept_eq_refKept, BitVec.toNat_ofNat,
    Nat.mod_eq_of_lt (by omega)]

end Completion

/-- Two states with the same unpunctured stream get the same SOBUF. -/
theorem unpuncture_byteAt_congr (p : Pattern) {len : BitVec 8} (fb : BitVec 3) (h32 : len.toNat ≤ 32) {s s' : State}
    (hz : unpuncture (codeLength len fb) (patternEntries p) s.sibuf =
      unpuncture (codeLength len fb) (patternEntries p) s'.sibuf) {a : Nat} (ha : inSobuf a) :
    (completeOk (unpunctureComplete p len fb s)).byteAt a =
      (completeOk (unpunctureComplete p len fb s')).byteAt a := by
  have hsobuf : sobufBase ≤ a ∧ a < sobufBase + softSize := by simp only [sobufBase, softSize]; omega
  rw [unpuncture_byteAt p len fb s h32, unpuncture_byteAt p len fb s' h32, if_pos hsobuf, if_pos hsobuf, hz]

theorem unpunctureResultOf_unpOf (p : Pattern) : UnpunctureResultOf p (unpOf p) := fun s len fb h1 h32 =>
  ⟨_, exec_unpOf_of_legal p fb s h1 h32, fun _ hi => unpuncture_sobuf p len fb s h32 hi,
    unpuncture_outCount_toNat p fb s h32, unpuncture_inCount_toNat p fb s h32, unpuncture_completedOk p len fb s,
    rfl, rfl, unpuncture_sameBytesOutside p fb s h32, unpuncture_kept p len fb s⟩

/-- Settles O9: the four commands are the UNPUNCTURE commands of the four patterns, each of which completes with the
unpunctured stream of SIBUF, padded with erasures. -/
theorem unpunctureSpreadsSoftBits : Obligations.UnpunctureSpreadsSoftBits :=
  ⟨unpunctureResultOf_unpOf .lsf, unpunctureResultOf_unpOf .pkt, unpunctureResultOf_unpOf .str,
    unpunctureResultOf_unpOf .raw⟩

/-- Settles O16: SOBUF is a function of the unpunctured stream, which reads the entries below `Kept(T, P)` alone; the
counts are functions of the operands. -/
theorem unreadSoftBitsDoNotAffectOutput : Obligations.UnreadSoftBitsDoNotAffectOutput := by
  intro p len fb s s' h1 h32 h
  have hz : unpuncture (codeLength len fb) (patternEntries p) s.sibuf =
      unpuncture (codeLength len fb) (patternEntries p) s'.sibuf := unpuncture_congr p h
  exact ⟨_, _, exec_unpOf_of_legal p fb s h1 h32, exec_unpOf_of_legal p fb s' h1 h32,
    fun a ha => unpuncture_byteAt_congr p fb h32 hz ha, rfl, rfl⟩

/-! ## Unpuncturing after puncturing (R80) -/

/-- An UNPUNCTURE command after an ENCODE command of the same operands: ENCODE puts the code bit of a kept position at
the very number from which UNPUNCTURE reads that position. -/
theorem unpuncture_sobuf_of_encoded (p : Pattern) {len : BitVec 8} (fb : BitVec 3) {s s' : State}
    (h1 : 1 ≤ len.toNat) (h32 : len.toNat ≤ 32)
    (hin : ∀ k, k < refKept p (codeLength len fb) →
      s'.sibuf k = soft ((completeOk (encodeComplete p len fb s)).obufBit k))
    {i : Nat} (hi : i < codeLength len fb) :
    (completeOk (unpunctureComplete p len fb s')).sobuf i =
      if refKeeps p i then soft (refCode s (inputCount len fb) i) else erasure := by
  have h520 : i < 520 := hi.trans_le (codeLength_le len fb h32)
  rw [unpuncture_sobuf p len fb s' h32 h520]
  by_cases hk : refKeeps p i = true
  · have hrank : refRank p i < refKept p (codeLength len fb) := by
      rw [← refRank_eq_refKept]; exact refRank_lt_of_kept p hi hk
    rw [if_pos ⟨hi, hk⟩, if_pos hk, hin _ hrank, encode_obufBit_kept p fb s h1 h32 hi hk]
  · rw [if_neg fun h => hk h.2, if_neg hk]

/-- Settles O17: ENCODE's completion is the only next state, and its OUTCNT bounds the entries UNPUNCTURE reads. -/
theorem unpunctureInvertsPuncturing : Obligations.UnpunctureInvertsPuncturing := by
  intro p len fb s t s' h1 h32 henc hin
  rw [exec_encOf_of_legal p fb s h1 h32] at henc
  cases henc
  rw [encode_outCount_toNat p fb s h1 h32] at hin
  exact ⟨_, exec_unpOf_of_legal p fb s' h1 h32, fun i hi => unpuncture_sobuf_of_encoded p fb h1 h32 hin hi⟩

end Sys2Proof.Machine

/-! Proofs for the exceptions' family (60_exceptions.md): the order of validation on the word as a number, irq as a
level, and what raises and deasserts it. -/

namespace Sys2Proof.Machine

/-! ## Validation by number (R83) -/

theorem reservedSet_iff (w : Word) : reservedSet w = true ↔ w.toNat / 2 ^ 7 % 2 ≠ 0 ∨ w.toNat / 2 ^ 16 ≠ 0 := by
  rw [← Bool.not_eq_false, reservedSet_eq_false_iff, not_and_or]

theorem opField_reserved_iff (w : Word) :
    (opField w = 2#2 ∨ opField w = 3#2) ↔ w.toNat % 4 = 2 ∨ w.toNat % 4 = 3 :=
  or_congr (opField_eq_iff w 2#2) (opField_eq_iff w 3#2)

theorem lenField_out_of_range_iff (w : Word) :
    (lenField w = 0#8 ∨ 32 < (lenField w).toNat) ↔
      w.toNat / 2 ^ 8 % 2 ^ 8 = 0 ∨ 32 < w.toNat / 2 ^ 8 % 2 ^ 8 := by
  rw [← BitVec.toNat_inj, lenField_toNat]; rfl

/-- Settles O5: the three checks of `validate`, in their order, are the three conditions on the number. -/
theorem validationReportsFirstFailure : Obligations.ValidationReportsFirstFailure := by
  intro w
  rw [validate, if_congr (reservedSet_iff w) rfl
    (if_congr (opField_reserved_iff w) rfl (if_congr (lenField_out_of_range_iff w) rfl rfl))]

/-! ## irq as a level (R85) -/

theorem irq_eq_true_iff (s : State) : s.irq = true ↔ s.ie = true ∧ s.done = true := Bool.and_eq_true_iff

theorem irq_of_done {s : State} (h : s.done = true) : s.irq = s.ie := by rw [State.irq, h, Bool.and_true]

theorem irq_of_not_done {s : State} (h : s.done = false) : s.irq = false := by rw [State.irq, h, Bool.and_false]

theorem AtReset.irq {s : State} (h : AtReset s) : s.irq = false := irq_of_not_done h.done

/-! ## The writes that move irq -/

theorem hostWrite_ctrl_of_not_srst {v : Word} (hv : v.getLsbD 1 = false) (s : State) :
    hostWrite 0x0004#13 4 v s = { s with ie := v.getLsbD 0, response := some .writeOk } := by
  rw [hostWrite_ctrl, ctrlWrite_of_not_srst hv]

theorem hostWrite_ctrl_irq_of_srst {v : Word} (hv : v.getLsbD 1 = true) (s : State) :
    (hostWrite 0x0004#13 4 v s).irq = false := by
  rw [hostWrite_ctrl, ctrlWrite, if_pos hv]
  exact (softReset_atReset s).irq

/-- A CTRL write with IE = 0 deasserts irq whether it resets the block or not. -/
theorem hostWrite_ctrl_irq_of_not_ie {v : Word} (hv : v.getLsbD 0 = false) (s : State) :
    (hostWrite 0x0004#13 4 v s).irq = false := by
  cases hsrst : v.getLsbD 1 with
  | true => exact hostWrite_ctrl_irq_of_srst hsrst s
  | false =>
    rw [hostWrite_ctrl_of_not_srst hsrst, State.irq, hv]
    exact Bool.false_and _

theorem statusWrite_irq_of_ack {v : Word} (hv : v.getLsbD 1 = true) (s : State) : (statusWrite v s).irq = false :=
  irq_of_not_done (by rw [statusWrite_done, hv, Bool.not_true, Bool.and_false])

/-- Settles O35: a completion and a command error set DONE and keep IE; a CTRL write without SRST sets IE and keeps
DONE. -/
theorem interruptIsRaisedByCompletion : Obligations.InterruptIsRaisedByCompletion := by
  refine ⟨fun i s _ _ => ?_, fun w s hb hv => ?_, fun v s hv => ?_, irq_eq_true_iff⟩
  · obtain ⟨t, hx, -, hdone, hkept⟩ := exec_kept i s
    exact ⟨t, hx, (irq_of_done hdone).trans hkept.ie⟩
  · rw [hostWrite_cmd, cmdWrite_of_invalid hb hv]
    exact irq_of_done rfl
  · rw [hostWrite_ctrl_of_not_srst hv]; rfl

/-- Settles O36: each write leaves DONE or IE at 0, and the acknowledgement masks DONE and OVR alone. -/
theorem interruptIsDeasserted : Obligations.InterruptIsDeasserted := by
  refine fun v s => ⟨fun hv => ?_, fun hv => hostWrite_ctrl_irq_of_not_ie hv s,
    fun hv => hostWrite_ctrl_irq_of_srst hv s, fun hb hv => ?_, (hardReset_atReset s).irq⟩
  · rw [hostWrite_status]
    exact ⟨statusWrite_irq_of_ack hv s, rfl, rfl, rfl, fun a => byteAt_congr rfl rfl a⟩
  · rw [hostWrite_cmd, cmdWrite_of_valid hb hv]
    exact irq_of_not_done rfl

/-! ## The assertion of the reset input (R87, R94) -/

/-- Settles O38: no completion is due, so the step is the assertion, a hardware reset with the event taken. -/
theorem hardwareResetIsOneStep : Obligations.HardwareResetIsOneStep := by
  intro s rest hp h
  exact ⟨_, step_of_hostMayMove h hp, rfl, hardReset_atReset _, (hardReset_atReset _).irq, rfl, rfl⟩

end Sys2Proof.Machine

/-! Proofs for the family of resets and hazards (70_reset_and_hazards.md): the state both resets leave, the bytes a soft
reset keeps, a step while the reset input is asserted, and what a step does to BUSY, DONE and OVR. -/

namespace Sys2Proof.Machine

/-! ## The reset state (R94, R96) -/

theorem reset_atReset : AtReset State.reset := ⟨rfl, rfl, rfl, rfl, rfl, rfl, rfl, rfl, rfl, rfl⟩

/-- Settles O37: both states have the registers of `AtReset`, which put irq at 0; ID reads the same in every state. -/
theorem hardwareResetState : Obligations.HardwareResetState :=
  ⟨reset_atReset, reset_atReset.irq, fun s => ⟨hardReset_atReset s, (hardReset_atReset s).irq, hostRead_id _⟩⟩

/-- Settles O45: the registers are at reset, no cell of memory is listed, and the reset input is released. -/
theorem resetMeetsInvariant : Obligations.ResetMeetsInvariant :=
  inv_of_atReset reset_atReset reset_mem_wf (fun _ hc => nomatch hc) nofun

/-! ## The soft reset (R98, R99) -/

theorem hostWrite_ctrl_of_srst {v : Word} (hv : v.getLsbD 1 = true) (s : State) :
    hostWrite 0x0004#13 4 v s = { softReset s with response := some .writeOk } := by
  rw [hostWrite_ctrl, ctrlWrite, if_pos hv]

/-- The CTRL write keeps each byte that is not of the output buffer of a command it abandons. -/
theorem hostWrite_ctrl_byteAt_of_srst {v : Word} (hv : v.getLsbD 1 = true) {s : State} {a : Nat}
    (ha : ¬(s.busy = true ∧ ((opField s.lcmd = 0#2 ∧ inObuf a) ∨ (opField s.lcmd = 1#2 ∧ inSobuf a)))) :
    (hostWrite 0x0004#13 4 v s).byteAt a = s.byteAt a := by
  rw [hostWrite_ctrl_of_srst hv]
  calc State.byteAt { softReset s with response := some .writeOk } a
      = (softReset s).byteAt a := byteAt_congr rfl rfl a
    _ = s.byteAt a := by_contra fun hne => ha (softReset_byteAt_ne hne)

/-- Settles O34: the registers are those of `softReset`; a byte kept is in no output buffer, of an idle block, or in the
output buffer of the other family. -/
theorem softResetKeepsBuffers : Obligations.SoftResetKeepsBuffers := by
  intro v s hv
  have hregs : AtReset (hostWrite 0x0004#13 4 v s) := by
    rw [hostWrite_ctrl_of_srst hv]
    exact (softReset_atReset s).of_bus _ _ _ _ _
  refine ⟨hregs, hregs.irq, fun a ha => hostWrite_ctrl_byteAt_of_srst hv ?_,
    fun hb a => hostWrite_ctrl_byteAt_of_srst hv ?_, fun _ hop a ha => hostWrite_ctrl_byteAt_of_srst hv ?_,
    fun _ hop a ha => hostWrite_ctrl_byteAt_of_srst hv ?_⟩
  · omega
  · simp [hb]
  · simp only [obufBase, obufSize] at ha
    rintro ⟨-, ⟨-, hin⟩ | ⟨hop', -⟩⟩
    · omega
    · cases hop.symm.trans hop'
  · simp only [sobufBase, softSize] at ha
    rintro ⟨-, ⟨hop', -⟩ | ⟨-, hin⟩⟩
    · cases hop.symm.trans hop'
    · omega

/-! ## While the reset input is asserted (R97) -/

theorem step_eq_stepInReset {s : State} (hr : s.resetAsserted = true) : step s = stepInReset s := by
  rw [step, nextEvent, if_pos hr]

/-- Of the ways a step answers a next state only that of the reset input is open. -/
theorem StepShape.of_resetAsserted {s t : State} (h : StepShape s t) (hr : s.resetAsserted = true) :
    t = { s with pending := t.pending, resetAsserted := t.resetAsserted } ∧
      (t.resetAsserted = false → s.pending = .releaseReset :: t.pending) := by
  cases h with
  | inReset _ ht hrel => exact ⟨ht, hrel⟩
  | engine hr' => exact nomatch hr.symm.trans hr'
  | write hr' => exact nomatch hr.symm.trans hr'
  | read hr' => exact nomatch hr.symm.trans hr'
  | reset hr' => exact nomatch hr.symm.trans hr'
  | quiet hr' => exact nomatch hr.symm.trans hr'

/-- Settles O39: a next state is that of `StepShape.inReset`, and the accesses are the arms of `stepInReset` that
fault. -/
theorem nothingHappensInReset : Obligations.NothingHappensInReset := by
  intro s hr
  refine ⟨fun t hstep => ?_, fun off bytes v rest hp => ?_, fun off bytes rest hp => ?_,
    fun off mask value rest hp => ?_⟩
  · obtain ⟨ht, hrel⟩ := (step_shape hstep).of_resetAsserted hr
    exact ⟨ht, fun hf => ⟨t.pending, hrel hf, rfl⟩⟩
  · rw [step_eq_stepInReset hr, stepInReset, hp]
  · rw [step_eq_stepInReset hr, stepInReset, hp]
  · rw [step_eq_stepInReset hr, stepInReset, hp]

/-! ## OVR (R102) -/

/-- A bus write that sets OVR is one dropped while busy. -/
theorem WriteShape.ovr_set {off : BitVec 13} {bytes : Nat} {v : Word} {s t : State}
    (h : WriteShape off bytes v s t) (hs : s.ovr = false) (ht : t.ovr = true) :
    bytes = 4 ∧ s.busy = true ∧ (off = 0x0008#13 ∨ inIbuf off.toNat ∨ inSibuf off.toNat) := by
  have hset : t.ovr ≠ s.ovr := by rw [hs, ht]; decide
  cases h with
  | ignored ht' => rw [ht'] at hset; exact absurd rfl hset
  | dropped h4 hb ho ht' => exact ⟨h4, hb, ho⟩
  | setsIe h4 ho hv ht' => subst ht'; exact absurd rfl hset
  | resets h4 ho hv ht' => subst ht'; cases ht
  | clears h4 ho ht' =>
    subst ht'
    exact nomatch hs.symm.trans (Bool.and_eq_true_iff.1 ht).1
  | accepted h4 ho hb hv ht' => subst ht'; exact absurd rfl hset
  | rejected h4 ho hb hv ht' => subst ht'; exact absurd rfl hset
  | stored h4 hal ho hb ht' => subst ht'; exact absurd rfl hset

/-- Settles O50: the engine keeps OVR, a hardware reset clears it, and of the bus writes only a dropped one sets it. -/
theorem overrunOnlyByDroppedWrite : Obligations.OverrunOnlyByDroppedWrite := by
  intro s t hstep hs hovr
  have hset : t.ovr ≠ s.ovr := by rw [hs, hovr]; decide
  cases step_shape hstep with
  | inReset hr ht hrel => rw [ht] at hset; exact absurd rfl hset
  | engine hr hb hp => exact absurd (performCommand_shape hp).kept.ovr hset
  | write hr off bytes v rest hp ht =>
    subst ht
    obtain ⟨rfl, hb, ho⟩ := (hostWrite_shape off bytes v (consume rest s)).ovr_set hs hovr
    exact ⟨hb, off, v, rest, hp, ho⟩
  | read hr ht => rw [ht] at hset; exact absurd rfl hset
  | reset hr rest hp ht => subst ht; cases hovr
  | quiet hr ht => rw [ht] at hset; exact absurd rfl hset

/-! ## BUSY or DONE after a command (R103) -/

/-- A CMD write leaves BUSY 1 if it is dropped or accepted, DONE 1 if it is turned away. -/
theorem hostWrite_cmd_busy_or_done (w : Word) (s : State) :
    (hostWrite 0x0008#13 4 w s).busy = true ∨ (hostWrite 0x0008#13 4 w s).done = true := by
  rw [hostWrite_cmd]
  obtain ⟨hb, hc⟩ | ⟨-, -, hc⟩ | ⟨-, -, hc⟩ := cmdWrite_cases w s
  · rw [hc]; exact .inl hb
  · rw [hc]; exact .inl rfl
  · rw [hc]; exact .inr rfl

/-- A bus write that leaves neither BUSY nor DONE where one was 1 is an acknowledgement or a soft reset. -/
theorem WriteShape.busy_done_cleared {off : BitVec 13} {bytes : Nat} {v : Word} {s t : State}
    (h : WriteShape off bytes v s t) (hs : s.busy = true ∨ s.done = true) (ht : ¬(t.busy = true ∨ t.done = true)) :
    bytes = 4 ∧ (off = 0x000C#13 ∨ off = 0x0004#13) ∧ v.getLsbD 1 = true := by
  cases h with
  | ignored ht' => rw [ht'] at ht; exact absurd hs ht
  | dropped h4 hb ho ht' => subst ht'; exact absurd hs ht
  | setsIe h4 ho hv ht' => subst ht'; exact absurd hs ht
  | resets h4 ho hv ht' => exact ⟨h4, .inr ho, hv⟩
  | clears h4 ho ht' =>
    subst ht'
    refine ⟨h4, .inl ho, by_contra fun hv => ht (hs.imp_right fun hd => ?_)⟩
    change (s.done && !v.getLsbD 1) = true
    rw [hd, Bool.eq_false_iff.2 hv]; rfl
  | accepted h4 ho hb hv ht' => subst ht'; exact absurd (.inl rfl) ht
  | rejected h4 ho hb hv ht' => subst ht'; exact absurd (.inr rfl) ht
  | stored h4 hal ho hb ht' => subst ht'; exact absurd hs ht

/-- Settles O22: the engine's step leaves DONE 1, and of the bus writes an acknowledgement and a soft reset alone leave
neither. -/
theorem neverIdleWithoutDoneAfterCommand : Obligations.NeverIdleWithoutDoneAfterCommand := by
  refine ⟨hostWrite_cmd_busy_or_done, fun s t hstep hs hbusy hdone => ?_⟩
  have ht : ¬(t.busy = true ∨ t.done = true) := by simp [hbusy, hdone]
  cases step_shape hstep with
  | inReset hr ht' hrel => rw [ht'] at ht; exact absurd hs ht
  | engine hr hb hp => exact absurd (.inr (performCommand_shape hp).idle_done.2) ht
  | write hr off bytes v rest hp ht' =>
    subst ht'
    obtain ⟨rfl, ho, hv⟩ := (hostWrite_shape off bytes v (consume rest s)).busy_done_cleared hs ht
    exact .inl ⟨off, v, rest, hp, ho, hv⟩
  | read hr ht' => rw [ht'] at ht; exact absurd hs ht
  | reset hr rest hp ht' => exact .inr ⟨rest, hp⟩
  | quiet hr ht' => rw [ht'] at ht; exact absurd hs ht

end Sys2Proof.Machine
